-- ==== Sys2Proof/Word.lean ====
section
/-! DEFINITION. Word: the value types of the machine. Every quantity is unsigned (00_scope.md R8). -/

namespace Sys2Proof

/-- A general register, a memory byte, a timer: 8 bits (R6, `XLEN`). -/
abbrev Byte := BitVec 8

/-- The program counter, the index register, a return address, an opcode: 16 bits (R6, `PC_BITS`, `I_BITS`). -/
abbrev Word := BitVec 16

/-- The 12-bit literal `NNN` (R61). -/
abbrev Lit12 := BitVec 12

/-- The name of a general register V0..VF, as the fields `X` and `Y` hold it (R11, R61). -/
abbrev Reg := Fin 16

/-- The index of a key 0..F (R19). -/
abbrev Key := Fin 16

/-- The row count `N` of a sprite, 0..15 (R61, R140). -/
abbrev Rows := Fin 16

end Sys2Proof
end

