-- ==== Sys2Proof/Syntax.lean ====
section
/-! DEFINITION. Syntax: the 34 instructions, one constructor per row of spec/opcode_table.json, and the opcode map
of 30_encoding.md R63 (mask, match, format), row for row. -/

namespace Sys2Proof

/-- An instruction with its operands (30_encoding.md R63). `x`, `y` are the register fields X, Y; `n` is the 4-bit
row count, `nn` the 8-bit literal, `nnn` the 12-bit literal (R61, R65). -/
inductive Instr where
  /-- `00E0` CLS: clear the framebuffer (R142). -/
  | cls
  /-- `00EE` RET: pop the stack into pc (R90). -/
  | ret
  /-- `1NNN` JP: pc := NNN (R91). -/
  | jp (nnn : Lit12)
  /-- `2NNN` CALL: push pc, pc := NNN (R92). -/
  | call (nnn : Lit12)
  /-- `3XNN` SEI: skip if VX = NN (R100). -/
  | sei (x : Reg) (nn : Byte)
  /-- `4XNN` SNEI: skip if VX ≠ NN (R101). -/
  | snei (x : Reg) (nn : Byte)
  /-- `5XY0` SE: skip if VX = VY (R102). -/
  | se (x y : Reg)
  /-- `6XNN` LDI: VX := NN (R111). -/
  | ldi (x : Reg) (nn : Byte)
  /-- `7XNN` ADDI: VX := VX + NN, no flag (R112). -/
  | addi (x : Reg) (nn : Byte)
  /-- `8XY0` MOV: VX := VY (R113). -/
  | mov (x y : Reg)
  /-- `8XY1` OR: VX := VX OR VY; VF := 0 (R114). -/
  | or (x y : Reg)
  /-- `8XY2` AND: VX := VX AND VY; VF := 0 (R115). -/
  | and (x y : Reg)
  /-- `8XY3` XOR: VX := VX XOR VY; VF := 0 (R116). -/
  | xor (x y : Reg)
  /-- `8XY4` ADD: VX := VX + VY; VF := carry (R117). -/
  | add (x y : Reg)
  /-- `8XY5` SUB: VF := VX > VY; VX := VX − VY (R118). -/
  | sub (x y : Reg)
  /-- `8XY6` SHR: VF := VX bit 0; VX := VX >> 1; the field Y is encoded and unused (R119, R66). -/
  | shr (x y : Reg)
  /-- `8XY7` SUBN: VF := VY > VX; VX := VY − VX (R120). -/
  | subn (x y : Reg)
  /-- `8XYE` SHL: VF := VX bit 7; VX := VX << 1; the field Y is encoded and unused (R121, R66). -/
  | shl (x y : Reg)
  /-- `9XY0` SNE: skip if VX ≠ VY (R103). -/
  | sne (x y : Reg)
  /-- `ANNN` LDA: I := NNN (R130). -/
  | lda (nnn : Lit12)
  /-- `BNNN` JP0: pc := V0 + NNN (R93). -/
  | jp0 (nnn : Lit12)
  /-- `CXNN` RND: VX := random byte AND NN (R122). -/
  | rnd (x : Reg) (nn : Byte)
  /-- `DXYN` DRW: XOR-draw N rows at (VX, VY); VF := collision (R141). -/
  | drw (x y : Reg) (n : Rows)
  /-- `EX9E` SKP: skip if key VX is down (R152). -/
  | skp (x : Reg)
  /-- `EXA1` SKNP: skip if key VX is not down (R153). -/
  | sknp (x : Reg)
  /-- `FX07` GDT: VX := delay timer (R160). -/
  | gdt (x : Reg)
  /-- `FX0A` WKEY: wait for a key; VX := its index (R154). -/
  | wkey (x : Reg)
  /-- `FX15` SDT: delay timer := VX (R161). -/
  | sdt (x : Reg)
  /-- `FX18` SST: sound timer := VX (R162). -/
  | sst (x : Reg)
  /-- `FX1E` ADDA: I := I + VX; VF := overflow (R131). -/
  | adda (x : Reg)
  /-- `FX29` FONT: I := 0x050 + 5·(VX AND 0xF) (R132). -/
  | font (x : Reg)
  /-- `FX33` BCD: store the three decimal digits of VX at I (R133). -/
  | bcd (x : Reg)
  /-- `FX55` STM: store V0..VX at I; the field X is a count (R134). -/
  | stm (x : Reg)
  /-- `FX65` LDM: load V0..VX from I; the field X is a count (R135). -/
  | ldm (x : Reg)
  deriving DecidableEq, Repr

/-- The 34 rows of the opcode map, named by their mnemonics (R63, R71). -/
inductive Op where
  | cls | ret | jp | call | sei | snei | se | ldi | addi | mov | or | and | xor | add | sub | shr | subn | shl | sne
  | lda | jp0 | rnd | drw | skp | sknp | gdt | wkey | sdt | sst | adda | font | bcd | stm | ldm
  deriving DecidableEq, Repr

/-- The six field layouts (R62). -/
inductive Format where
  | fixed | addr | regImm | regReg | regRegImm4 | reg
  deriving DecidableEq, Repr

/-- The row of the opcode map an instruction belongs to. -/
def Instr.op : Instr → Op
  | .cls => .cls
  | .ret => .ret
  | .jp _ => .jp
  | .call _ => .call
  | .sei _ _ => .sei
  | .snei _ _ => .snei
  | .se _ _ => .se
  | .ldi _ _ => .ldi
  | .addi _ _ => .addi
  | .mov _ _ => .mov
  | .or _ _ => .or
  | .and _ _ => .and
  | .xor _ _ => .xor
  | .add _ _ => .add
  | .sub _ _ => .sub
  | .shr _ _ => .shr
  | .subn _ _ => .subn
  | .shl _ _ => .shl
  | .sne _ _ => .sne
  | .lda _ => .lda
  | .jp0 _ => .jp0
  | .rnd _ _ => .rnd
  | .drw _ _ _ => .drw
  | .skp _ => .skp
  | .sknp _ => .sknp
  | .gdt _ => .gdt
  | .wkey _ => .wkey
  | .sdt _ => .sdt
  | .sst _ => .sst
  | .adda _ => .adda
  | .font _ => .font
  | .bcd _ => .bcd
  | .stm _ => .stm
  | .ldm _ => .ldm

/-- The column "match" of the opcode map (R63). -/
def Op.pattern : Op → Word
  | .cls => 0x00E0
  | .ret => 0x00EE
  | .jp => 0x1000
  | .call => 0x2000
  | .sei => 0x3000
  | .snei => 0x4000
  | .se => 0x5000
  | .ldi => 0x6000
  | .addi => 0x7000
  | .mov => 0x8000
  | .or => 0x8001
  | .and => 0x8002
  | .xor => 0x8003
  | .add => 0x8004
  | .sub => 0x8005
  | .shr => 0x8006
  | .subn => 0x8007
  | .shl => 0x800E
  | .sne => 0x9000
  | .lda => 0xA000
  | .jp0 => 0xB000
  | .rnd => 0xC000
  | .drw => 0xD000
  | .skp => 0xE09E
  | .sknp => 0xE0A1
  | .gdt => 0xF007
  | .wkey => 0xF00A
  | .sdt => 0xF015
  | .sst => 0xF018
  | .adda => 0xF01E
  | .font => 0xF029
  | .bcd => 0xF033
  | .stm => 0xF055
  | .ldm => 0xF065

/-- The column "format" of the opcode map (R62, R63). -/
def Op.format : Op → Format
  | .cls | .ret => .fixed
  | .jp | .call | .lda | .jp0 => .addr
  | .sei | .snei | .ldi | .addi | .rnd => .regImm
  | .se | .mov | .or | .and | .xor | .add | .sub | .shr | .subn | .shl | .sne => .regReg
  | .drw => .regRegImm4
  | .skp | .sknp | .gdt | .wkey | .sdt | .sst | .adda | .font | .bcd | .stm | .ldm => .reg

/-- The column "mask" of the opcode map (R63): it is the same for every row of one format. -/
def Format.mask : Format → Word
  | .fixed => 0xFFFF
  | .addr => 0xF000
  | .regImm => 0xF000
  | .regReg => 0xF00F
  | .regRegImm4 => 0xF000
  | .reg => 0xF0FF

/-- An opcode selects a row when `op & mask == match` (R63). -/
def Op.selects (o : Op) (w : Word) : Bool := w &&& o.format.mask == o.pattern

/-- All rows, in the order of the opcode map (R63). -/
def Op.all : List Op :=
  [.cls, .ret, .jp, .call, .sei, .snei, .se, .ldi, .addi, .mov, .or, .and, .xor, .add, .sub, .shr, .subn] ++
  [.shl, .sne, .lda, .jp0, .rnd, .drw, .skp, .sknp, .gdt, .wkey, .sdt, .sst, .adda, .font, .bcd, .stm, .ldm]

end Sys2Proof
end

