-- ==== Sys2Proof/WellFormed.lean ====
section
/-! DEFINITION. WellFormed: an instruction as it is WRITTEN (30_encoding.md R71), the checks its operands must pass,
and the assembly of a written instruction that passes them. `Instr` itself cannot hold an ill-formed operand: its
fields have exactly the widths of the encoding's, and every value of a field is legal (R65). The checks stand where
numbers of any size come in: on the written line. -/

namespace Sys2Proof

/-- An operand as written: a register `V<n>` or a number (R71). -/
inductive Operand where
  | reg (n : Nat)
  | num (n : Nat)
  deriving DecidableEq, Repr

/-- What an operand position takes: Vx or Vy, `nnn`, `nn`, `n` (R71). -/
inductive OperandKind where
  | reg | nnn | nn | n
  deriving DecidableEq, Repr

/-- A line: a mnemonic and its operands, destination or first-compared register first (R71). -/
structure Line where
  op : Op
  operands : List Operand
  deriving DecidableEq, Repr

/-- The operands of each format, in written order (R62, R71). -/
def Format.operandKinds : Format → List OperandKind
  | .fixed => []
  | .addr => [.nnn]
  | .regImm => [.reg, .nn]
  | .regReg => [.reg, .reg]
  | .regRegImm4 => [.reg, .reg, .n]
  | .reg => [.reg]

/-- An operand fits its position: the right sort of operand, within the width of its field (R61, R65, R71). -/
def Operand.fits : OperandKind → Operand → Bool
  | .reg, .reg k => k < 16
  | .nnn, .num k => k < 4096
  | .nn, .num k => k < 256
  | .n, .num k => k < 16
  | .reg, .num _ => false
  | .nnn, .reg _ => false
  | .nn, .reg _ => false
  | .n, .reg _ => false

/-- As many operands as positions, each fitting its own. -/
def fitsAll : List OperandKind → List Operand → Bool
  | [], [] => true
  | k :: ks, o :: os => o.fits k && fitsAll ks os
  | [], _ :: _ => false
  | _ :: _, [] => false

/-- `SHR Vx` and `SHL Vx` with one operand are written for `Y = 0` (R71). -/
def Line.full (l : Line) : Line :=
  match l.op, l.operands with
  | .shr, [a] => { l with operands := [a, .reg 0] }
  | .shl, [a] => { l with operands := [a, .reg 0] }
  | _, _ => l

/-- The line is a well-formed instruction. -/
def Line.wellFormed (l : Line) : Bool := fitsAll l.op.format.operandKinds l.full.operands

/-- An operand's number, read as a register or 4-bit field. -/
def Operand.toFin16 : Operand → Fin 16
  | .reg k => Fin.ofNat 16 k
  | .num k => Fin.ofNat 16 k

/-- An operand's number, read as a literal of `w` bits. -/
def Operand.toLit (w : Nat) : Operand → BitVec w
  | .reg k => BitVec.ofNat w k
  | .num k => BitVec.ofNat w k

/-- The instruction of an `ADDR` row. -/
def Op.mkAddr : Op → Option (Lit12 → Instr)
  | .jp => some .jp
  | .call => some .call
  | .lda => some .lda
  | .jp0 => some .jp0
  | _ => none

/-- The instruction of a `REG_IMM` row. -/
def Op.mkRegImm : Op → Option (Reg → Byte → Instr)
  | .sei => some .sei
  | .snei => some .snei
  | .ldi => some .ldi
  | .addi => some .addi
  | .rnd => some .rnd
  | _ => none

/-- The instruction of a `REG_REG` row. -/
def Op.mkRegReg : Op → Option (Reg → Reg → Instr)
  | .se => some .se
  | .mov => some .mov
  | .or => some .or
  | .and => some .and
  | .xor => some .xor
  | .add => some .add
  | .sub => some .sub
  | .shr => some .shr
  | .subn => some .subn
  | .shl => some .shl
  | .sne => some .sne
  | _ => none

/-- The instruction of a `REG` row. -/
def Op.mkReg : Op → Option (Reg → Instr)
  | .skp => some .skp
  | .sknp => some .sknp
  | .gdt => some .gdt
  | .wkey => some .wkey
  | .sdt => some .sdt
  | .sst => some .sst
  | .adda => some .adda
  | .font => some .font
  | .bcd => some .bcd
  | .stm => some .stm
  | .ldm => some .ldm
  | _ => none

/-- The instruction a line's mnemonic and operands name, operands taken at face value. -/
def Line.instr (l : Line) : Option Instr :=
  match l.op, l.full.operands with
  | .cls, [] => some .cls
  | .ret, [] => some .ret
  | .drw, [a, b, c] => some (.drw a.toFin16 b.toFin16 c.toFin16)
  | o, [a] =>
    match o.mkAddr with
    | some f => some (f (a.toLit 12))
    | none => o.mkReg.map (fun f => f a.toFin16)
  | o, [a, b] =>
    match o.mkRegImm with
    | some f => some (f a.toFin16 (b.toLit 8))
    | none => o.mkRegReg.map (fun f => f a.toFin16 b.toFin16)
  | _, _ => none

/-- Assembling a line: the instruction it stands for, if it is well formed. -/
def Line.assemble (l : Line) : Option Instr := if l.wellFormed then l.instr else none

/-- An instruction's operands as written. -/
def Instr.operands : Instr → List Operand
  | .cls => []
  | .ret => []
  | .jp nnn => [.num nnn.toNat]
  | .call nnn => [.num nnn.toNat]
  | .sei x nn => [.reg x, .num nn.toNat]
  | .snei x nn => [.reg x, .num nn.toNat]
  | .se x y => [.reg x, .reg y]
  | .ldi x nn => [.reg x, .num nn.toNat]
  | .addi x nn => [.reg x, .num nn.toNat]
  | .mov x y => [.reg x, .reg y]
  | .or x y => [.reg x, .reg y]
  | .and x y => [.reg x, .reg y]
  | .xor x y => [.reg x, .reg y]
  | .add x y => [.reg x, .reg y]
  | .sub x y => [.reg x, .reg y]
  | .shr x y => [.reg x, .reg y]
  | .subn x y => [.reg x, .reg y]
  | .shl x y => [.reg x, .reg y]
  | .sne x y => [.reg x, .reg y]
  | .lda nnn => [.num nnn.toNat]
  | .jp0 nnn => [.num nnn.toNat]
  | .rnd x nn => [.reg x, .num nn.toNat]
  | .drw x y n => [.reg x, .reg y, .num n]
  | .skp x => [.reg x]
  | .sknp x => [.reg x]
  | .gdt x => [.reg x]
  | .wkey x => [.reg x]
  | .sdt x => [.reg x]
  | .sst x => [.reg x]
  | .adda x => [.reg x]
  | .font x => [.reg x]
  | .bcd x => [.reg x]
  | .stm x => [.reg x]
  | .ldm x => [.reg x]

/-- An instruction as a line. -/
def Instr.written (i : Instr) : Line := { op := i.op, operands := i.operands }

/-- An instruction is well formed when the line that writes it passes the checks. -/
def Instr.wellFormed (i : Instr) : Bool := i.written.wellFormed

end Sys2Proof
end

