-- ==== Sys2Proof/Decode.lean ====
section
/-! DEFINITION. Decode: from bytes to an instruction or a named refusal (30_encoding.md R60 to R68), the encoder, and
the two functions by which the host gives opcode-table words to the decoder. -/

namespace Sys2Proof

/-- Why bytes are no instruction. The `Step` that meets one of the last two raises `InvalidOpcode` (R172 (a), (b)). -/
inductive DecodeError where
  /-- Fewer than two bytes: every instruction takes exactly two (R60). -/
  | truncated
  /-- The family (top nibble) has no member with these remaining bits: families 0, 8, E, F (R172 (a)). -/
  | noMember (family : BitVec 4)
  /-- A skip-family word `5XYN` or `9XYN` with `N ≠ 0` (R172 (b)). -/
  | malformedSkip (family : BitVec 4)
  deriving DecidableEq, Repr

/-- `op[15:12]`, the family (R61). -/
def fieldF (op : Word) : BitVec 4 := op.extractLsb' 12 4

/-- `op[11:8]` (R61). -/
def fieldX (op : Word) : Reg := (op.extractLsb' 8 4).toFin

/-- `op[7:4]` (R61). -/
def fieldY (op : Word) : Reg := (op.extractLsb' 4 4).toFin

/-- `op[3:0]` (R61). -/
def fieldN (op : Word) : Rows := (op.extractLsb' 0 4).toFin

/-- `op[7:0]` (R61). -/
def fieldNN (op : Word) : Byte := op.extractLsb' 0 8

/-- `op[11:0]` (R61). -/
def fieldNNN (op : Word) : Lit12 := op.extractLsb' 0 12

/-- The members of family 8, by `N` (R64). -/
def decodeFamily8 (x y : Reg) (n : Rows) : Except DecodeError Instr :=
  match n.val with
  | 0x0 => .ok (.mov x y)
  | 0x1 => .ok (.or x y)
  | 0x2 => .ok (.and x y)
  | 0x3 => .ok (.xor x y)
  | 0x4 => .ok (.add x y)
  | 0x5 => .ok (.sub x y)
  | 0x6 => .ok (.shr x y)
  | 0x7 => .ok (.subn x y)
  | 0xE => .ok (.shl x y)
  | _ => .error (.noMember 0x8)

/-- The members of family E, by `NN` (R64). -/
def decodeFamilyE (x : Reg) (nn : Byte) : Except DecodeError Instr :=
  if nn = 0x9E then .ok (.skp x)
  else if nn = 0xA1 then .ok (.sknp x)
  else .error (.noMember 0xE)

/-- The members of family F, by `NN` (R64). -/
def decodeFamilyF (x : Reg) (nn : Byte) : Except DecodeError Instr :=
  if nn = 0x07 then .ok (.gdt x)
  else if nn = 0x0A then .ok (.wkey x)
  else if nn = 0x15 then .ok (.sdt x)
  else if nn = 0x18 then .ok (.sst x)
  else if nn = 0x1E then .ok (.adda x)
  else if nn = 0x29 then .ok (.font x)
  else if nn = 0x33 then .ok (.bcd x)
  else if nn = 0x55 then .ok (.stm x)
  else if nn = 0x65 then .ok (.ldm x)
  else .error (.noMember 0xF)

/-- Family 0: the whole word must match (R64; 92_eei_decisions.md D12). -/
def decodeFamily0 (op : Word) : Except DecodeError Instr :=
  if op = 0x00E0 then .ok .cls
  else if op = 0x00EE then .ok .ret
  else .error (.noMember 0x0)

/-- The decoding procedure of R64, a total function of the 16 bits. The last case is family 0xF, the one value a 4-bit
field has left. -/
def decodeWord (op : Word) : Except DecodeError Instr :=
  match (fieldF op).toNat with
  | 0x0 => decodeFamily0 op
  | 0x1 => .ok (.jp (fieldNNN op))
  | 0x2 => .ok (.call (fieldNNN op))
  | 0x3 => .ok (.sei (fieldX op) (fieldNN op))
  | 0x4 => .ok (.snei (fieldX op) (fieldNN op))
  | 0x5 => if fieldN op = 0 then .ok (.se (fieldX op) (fieldY op)) else .error (.malformedSkip 0x5)
  | 0x6 => .ok (.ldi (fieldX op) (fieldNN op))
  | 0x7 => .ok (.addi (fieldX op) (fieldNN op))
  | 0x8 => decodeFamily8 (fieldX op) (fieldY op) (fieldN op)
  | 0x9 => if fieldN op = 0 then .ok (.sne (fieldX op) (fieldY op)) else .error (.malformedSkip 0x9)
  | 0xA => .ok (.lda (fieldNNN op))
  | 0xB => .ok (.jp0 (fieldNNN op))
  | 0xC => .ok (.rnd (fieldX op) (fieldNN op))
  | 0xD => .ok (.drw (fieldX op) (fieldY op) (fieldN op))
  | 0xE => decodeFamilyE (fieldX op) (fieldNN op)
  | _ => decodeFamilyF (fieldX op) (fieldNN op)

/-- The opcode two consecutive bytes form, the byte at the lower address being bits 15..8 (20_memory.md R49). -/
def opcode (b0 b1 : Byte) : Word := b0 ++ b1

/-- The decoder on bytes in memory order: one instruction and the bytes after it. -/
def decode : List Byte → Except DecodeError (Instr × List Byte)
  | b0 :: b1 :: rest =>
    match decodeWord (opcode b0 b1) with
    | .ok i => .ok (i, rest)
    | .error e => .error e
  | [_] => .error .truncated
  | [] => .error .truncated

/-- A 4-bit field's bits. -/
def nibble (x : Fin 16) : BitVec 4 := BitVec.ofFin x

/-- Format `ADDR`: family, NNN (R62). -/
def wordAddr (f : BitVec 4) (nnn : Lit12) : Word := f ++ nnn

/-- Format `REG_IMM`: family, X, NN (R62). -/
def wordRegImm (f : BitVec 4) (x : Reg) (nn : Byte) : Word := f ++ (nibble x ++ nn)

/-- Formats `REG_REG` and `REG_REG_IMM4`: family, X, Y, function or N (R62). -/
def wordRegReg (f : BitVec 4) (x y : Reg) (n : BitVec 4) : Word := f ++ (nibble x ++ (nibble y ++ n))

/-- The encoder, by the formats of R62 and the patterns of R63. -/
def encodeWord : Instr → Word
  | .cls => 0x00E0
  | .ret => 0x00EE
  | .jp nnn => wordAddr 0x1 nnn
  | .call nnn => wordAddr 0x2 nnn
  | .sei x nn => wordRegImm 0x3 x nn
  | .snei x nn => wordRegImm 0x4 x nn
  | .se x y => wordRegReg 0x5 x y 0x0
  | .ldi x nn => wordRegImm 0x6 x nn
  | .addi x nn => wordRegImm 0x7 x nn
  | .mov x y => wordRegReg 0x8 x y 0x0
  | .or x y => wordRegReg 0x8 x y 0x1
  | .and x y => wordRegReg 0x8 x y 0x2
  | .xor x y => wordRegReg 0x8 x y 0x3
  | .add x y => wordRegReg 0x8 x y 0x4
  | .sub x y => wordRegReg 0x8 x y 0x5
  | .shr x y => wordRegReg 0x8 x y 0x6
  | .subn x y => wordRegReg 0x8 x y 0x7
  | .shl x y => wordRegReg 0x8 x y 0xE
  | .sne x y => wordRegReg 0x9 x y 0x0
  | .lda nnn => wordAddr 0xA nnn
  | .jp0 nnn => wordAddr 0xB nnn
  | .rnd x nn => wordRegImm 0xC x nn
  | .drw x y n => wordRegReg 0xD x y (nibble n)
  | .skp x => wordRegImm 0xE x 0x9E
  | .sknp x => wordRegImm 0xE x 0xA1
  | .gdt x => wordRegImm 0xF x 0x07
  | .wkey x => wordRegImm 0xF x 0x0A
  | .sdt x => wordRegImm 0xF x 0x15
  | .sst x => wordRegImm 0xF x 0x18
  | .adda x => wordRegImm 0xF x 0x1E
  | .font x => wordRegImm 0xF x 0x29
  | .bcd x => wordRegImm 0xF x 0x33
  | .stm x => wordRegImm 0xF x 0x55
  | .ldm x => wordRegImm 0xF x 0x65

/-- A word as it lies in memory, high byte at the lower address (R49, R60). -/
def wordBytes (w : Word) : List Byte := [w.extractLsb' 8 8, w.extractLsb' 0 8]

/-- The encoder: the two bytes of an instruction in memory order. -/
def encode (i : Instr) : List Byte := wordBytes (encodeWord i)

/-- The opcode word of an opcode-table word of `nbits` bits; every bit above `nbits` is 0. -/
def tableWord (nbits w : Nat) : Word := BitVec.ofNat 16 (w % 2 ^ nbits)

/-- The instruction the decoder reads from an opcode-table word. -/
def decodeTableWord (nbits w : Nat) : Option Instr :=
  match decode (wordBytes (tableWord nbits w)) with
  | .ok (i, _) => some i
  | .error _ => none

end Sys2Proof
end

