-- ==== Sys2Proof/Config.lean ====
section
/-! DEFINITION. Config: the fixed parameters of the hardware (00_scope.md R6), the settings of its open parameters (R7),
which a machine takes as an argument, and the free values, which have no body so that nothing can be proved of what
they are. -/

namespace Sys2Proof.Config

/-- Bytes of memory (R6, `MEM_SIZE`). -/
abbrev memSize : Nat := 0x1000

/-- The highest address (R6, R46). -/
abbrev topAddress : Nat := 0xFFF

/-- First byte of the font (R6, `FONT_BASE`). -/
abbrev fontBase : Nat := 0x050

/-- Bytes in one glyph (R6, `GLYPH_BYTES`). -/
abbrev glyphBytes : Nat := 5

/-- Address after the font's last byte: the font occupies [0x050, 0x0A0) (R6, R43). -/
abbrev fontEnd : Nat := 0x0A0

/-- Load address and reset value of pc (R6, `PROG_BASE`). -/
abbrev progBase : Nat := 0x200

/-- Largest loadable program, in bytes (R6, `PROG_MAX`; 90_conflicts.md C1). -/
abbrev progMax : Nat := 3584

/-- Framebuffer columns (R6, `FB_W`). -/
abbrev fbWidth : Nat := 64

/-- Framebuffer rows (R6, `FB_H`). -/
abbrev fbHeight : Nat := 32

/-- Entries of the call stack (R6, `STACK_DEPTH`). -/
abbrev stackDepth : Nat := 16

/-- The settings of the open parameter `DRAW_X_POLICY` (R7, R141; 92_eei_decisions.md D4). -/
inductive DrawXPolicy where
  /-- Sprite pixels right of column 63 are dropped. -/
  | clip
  /-- They reappear at the left, column mod 64. -/
  | wrap
  deriving DecidableEq, Repr

/-- The settings of the open parameter `FX1E_ELSE` (R7, R131; 92_eei_decisions.md D5). -/
inductive Fx1eElse where
  /-- VF becomes 0 when there is no overflow. -/
  | zero
  /-- VF keeps its value when there is no overflow. -/
  | unchanged
  deriving DecidableEq, Repr

/-- Bytes in the font (R6, `FONT_GLYPHS` times `GLYPH_BYTES`). -/
abbrev fontSize : Nat := 80

/-- A font: the 80 bytes at [0x050, 0x0A0) after reset, glyph 0 first (20_memory.md R43, R44). -/
abbrev Font := Vector Byte fontSize

/-- The open parameters of R7 that the block reads. A machine is built with one setting of each; every operation of the
model takes them from the state, so that a claim about every state is a claim about every setting. Log entry 22. -/
structure Settings where
  /-- `FONT` (20_memory.md R44; 92_eei_decisions.md D14). -/
  font : Font
  /-- `DRAW_X_POLICY` (R141; 92_eei_decisions.md D4). -/
  drawXPolicy : DrawXPolicy
  /-- `FX1E_ELSE` (R131; 92_eei_decisions.md D5). -/
  fx1eElse : Fx1eElse
  deriving DecidableEq, Repr

/-- FREE VALUE: the byte of the k-th draw of the random source (R22, R122, U1). Nothing constrains it, and no law
links two draws. Log entry 1. -/
opaque randomByte : Nat → Byte

/-- The pieces of state a failed `Load` leaves unspecified (R203, U5). -/
inductive Item where
  | V (r : Reg)
  | I
  | pc
  | stack (k : Nat)
  | sp
  | dt
  | st
  | keys
  | fb (row : Nat)
  | prev (row : Nat)
  | mem (a : Nat)
  deriving DecidableEq, Repr

/-- FREE VALUE: what the named piece of state holds after the failed `Load` numbered by the first argument
(R203: "every other piece of state unspecified"). Log entry 2. -/
opaque unspecified : Nat → Item → Nat

end Sys2Proof.Config
end

