-- ==== Sys2Proof/Machine/Params.lean ====
section
/-! DEFINITION. Params: the default the spec decides for each open parameter of 00_scope.md R7, and the reset image under
a font. Only State.reset reads a default; every meaning reads the settings of the state it runs in. -/

namespace Sys2Proof.Machine

/-- `FONT` at the spec's default, glyphs 0 to 7, row 0 first (20_memory.md R44; 92_eei_decisions.md D14). PRESUMED:
the bytes are from general knowledge, not in the source (93_implementation_defined.md G1). Log entry 6. -/
def fontLow : List Byte :=
  [0xF0, 0x90, 0x90, 0x90, 0xF0] ++ [0x20, 0x60, 0x20, 0x20, 0x70] ++
  [0xF0, 0x10, 0xF0, 0x80, 0xF0] ++ [0xF0, 0x10, 0xF0, 0x10, 0xF0] ++
  [0x90, 0x90, 0xF0, 0x10, 0x10] ++ [0xF0, 0x80, 0xF0, 0x10, 0xF0] ++
  [0xF0, 0x80, 0xF0, 0x90, 0xF0] ++ [0xF0, 0x10, 0x20, 0x40, 0x40]

/-- Glyphs 8 to F of the same table. -/
def fontHigh : List Byte :=
  [0xF0, 0x90, 0xF0, 0x90, 0xF0] ++ [0xF0, 0x90, 0xF0, 0x10, 0xF0] ++
  [0xF0, 0x90, 0xF0, 0x90, 0x90] ++ [0xE0, 0x90, 0xE0, 0x90, 0xE0] ++
  [0xF0, 0x80, 0x80, 0x80, 0xF0] ++ [0xE0, 0x90, 0x90, 0x90, 0xE0] ++
  [0xF0, 0x80, 0xF0, 0x80, 0xF0] ++ [0xF0, 0x80, 0xF0, 0x80, 0x80]

/-- The default font, all 80 bytes. -/
def defaultFont : Config.Font := Vector.mk (List.toArray (fontLow ++ fontHigh)) rfl

/-- The defaults of R7: `FONT` (D14, log entry 6), `DRAW_X_POLICY` clip (D4, log entry 4), `FX1E_ELSE` zero (D5, log
entry 5). -/
def defaultSettings : Config.Settings where
  font := defaultFont
  drawXPolicy := .clip
  fx1eElse := .zero

/-- WHAT AN UNLISTED ADDRESS READS AS: the reset image under a font, its bytes at [0x050, 0x0A0) and zero elsewhere
(R29, R41, R201). -/
def resetImage (font : Config.Font) (a : Nat) : Byte :=
  if Config.fontBase ≤ a ∧ a < Config.fontEnd then font[a - Config.fontBase]?.getD 0 else 0

end Sys2Proof.Machine
end

