-- ==== Sys2Proof/Machine/State.lean ====
section
/-! DEFINITION. State: everything 10_state.md R10 gives the machine, as plain data, and three fields of the model's
own: the random-draw counter, the host's undelivered events, and the settings of the open parameters. -/

namespace Sys2Proof.Machine

/-- The five fatal errors (60_exceptions.md R170). They are the values of the fault latch `State.fault` (R28): the
machine that raises one goes to a NEXT state with the latch set (R175), and a latched machine's `Step` changes nothing
(R176), so no step of this model ends in `Host.Outcome.fault`. -/
inductive Fault where
  /-- `Load` of more than 3584 bytes (R203). Raised by the event `Load`. Safe: the latch stops the machine, and all
  other state is a free value. -/
  | loadError
  /-- A push onto sixteen entries (R174). Raised by CALL. Safe: the spec's own fault. -/
  | stackOverflow
  /-- A pop of the empty stack (R174). Raised by RET. Safe: the spec's own fault. -/
  | stackUnderflow
  /-- A word outside the 34 patterns, or SKP, SKNP with VX > 0xF (R172). Raised by decoding and by SKP, SKNP. Safe: the
  spec's own fault. -/
  | invalidOpcode
  /-- An access above 0xFFF (R173). Raised by the fetch and by DRW, BCD, STM, LDM. Safe: the spec's own fault. -/
  | memoryBounds
  deriving DecidableEq, Repr

/-- Why the model gives an instruction no meaning. -/
inductive Refusal where
  /-- The instruction of this mnemonic has no meaning yet. Raised by no arm of `exec` in this model. Safe: it stops. -/
  | notModelled (mnemonic : String)
  deriving DecidableEq, Repr

/-- The atomic events through which the outside world acts on the block (60_exceptions.md R180). -/
inductive Event where
  /-- The interpreter processes one instruction (40_step_cycle.md R80). -/
  | step
  /-- The Timer Driver's 60 Hz tick (47_timers.md R163). -/
  | tick
  /-- Key `k` goes down (46_keypad.md R150). -/
  | keyDown (k : Key)
  /-- Key `k` goes up (46_keypad.md R151). -/
  | keyUp (k : Key)
  /-- The program loader gives a program image; the only reset (70_reset_and_hazards.md R200). -/
  | load (bytes : List Byte)
  /-- The host commits the frame (45_display.md R147). -/
  | commitFrame
  deriving DecidableEq, Repr

/-- Memory: the (address, byte) pairs that differ from the reset image, addresses strictly rising
(Machine/Ops.lean gives what an unlisted address reads as, and the canonical form). -/
abbrev Memory := List Host.Cell

/-- A 32 × 64 one-bit picture as 32 words of 64 bits; column x of a row is bit 63 − x (R20). -/
abbrev Screen := Vector (BitVec 64) 32

/-- The blank screen. -/
def Screen.blank : Screen := Vector.replicate 32 0

/-- The machine's state (10_state.md R10). -/
structure State where
  /-- The general registers V0..VF (R11, R12). -/
  V : Vector Byte 16
  /-- The index register (R13). -/
  I : Word
  /-- The program counter (R14). -/
  pc : Word
  /-- The sixteen entries of the call stack, outside memory (R15). -/
  stack : Vector Word 16
  /-- The stack pointer: the number of valid entries, 0..16 (R16). -/
  sp : Fin 17
  /-- The delay timer (R17). -/
  dt : Byte
  /-- The sound timer (R18). -/
  st : Byte
  /-- The key mask: bit k is 1 while key k is down (R19). -/
  keys : BitVec 16
  /-- The framebuffer (R20). -/
  fb : Screen
  /-- The previous-frame buffer (R21). -/
  prev : Screen
  /-- The 4096 bytes of memory (R23). -/
  mem : Memory
  /-- The fault latch (R28). -/
  fault : Option Fault
  /-- THE MODEL'S OWN: how many draws the random source has made; the k-th draw is `Config.randomByte k`
  (R22, log entry 1). A failed `Load` takes a number from it too (log entry 2). -/
  draws : Nat
  /-- THE MODEL'S OWN: the events the host will deliver next, oldest first; when none is left the interpreter is
  stepped (R8 "schedule", R182, log entry 3). -/
  schedule : List Event
  /-- THE MODEL'S OWN: the open parameters this machine is built with (00_scope.md R7). No instruction and no event
  changes them (log entry 22). -/
  settings : Config.Settings
  deriving DecidableEq, Repr

/-- What a step or a meaning answers. -/
abbrev Result := Host.Outcome State Fault Refusal

/-- The state after a successful `Load` of the empty program into a machine built with some settings (10_state.md R29):
memory lists nothing, so it reads as the reset image of 70_reset_and_hazards.md R201 under that machine's font. -/
def State.resetWith (settings : Config.Settings) : State where
  V := Vector.replicate 16 0
  I := 0
  pc := 0x200
  stack := Vector.replicate 16 0
  sp := 0
  dt := 0
  st := 0
  keys := 0
  fb := Screen.blank
  prev := Screen.blank
  mem := []
  fault := none
  draws := 0
  schedule := []
  settings := settings

/-- The state after reset of the machine with the spec's defaults (R7, R29). -/
def State.reset : State := State.resetWith defaultSettings

end Sys2Proof.Machine
end

