-- ==== Sys2Proof/Machine/Ops.lean ====
section
/-! DEFINITION. Ops: the named operations over memory, registers, pc, stack and fault latch. Meanings are written over
these. -/

namespace Sys2Proof.Machine

/-! ### Memory (20_memory.md) -/

/-- The byte at an address (R8 `mem[a]`), without any check, in a machine with a font. -/
def Memory.get (font : Config.Font) : Memory → Nat → Byte
  | [], a => resetImage font a
  | (k, b) :: rest, a => if a = k then b else Memory.get font rest a

/-- Drop what is listed at an address. -/
def Memory.erase (m : Memory) (a : Nat) : Memory := m.filter (fun cell => cell.1 != a)

/-- Put a cell before the first one at a higher address. -/
def Memory.insert : Memory → Nat → Byte → Memory
  | [], a, b => [(a, b)]
  | (k, c) :: rest, a, b => if a < k then (a, b) :: (k, c) :: rest else (k, c) :: Memory.insert rest a b

/-- Replace the byte at an address (R8 `mem[a] <- v`), without any check, keeping the canonical form: a byte equal to
what an unlisted address reads as is not listed. -/
def Memory.set (font : Config.Font) (m : Memory) (a : Nat) (b : Byte) : Memory :=
  if b = resetImage font a then m.erase a else (m.erase a).insert a b

/-- Replace consecutive bytes, ascending from an address (R48). -/
def Memory.write (font : Config.Font) : Memory → Nat → List Byte → Memory
  | m, _, [] => m
  | m, a, b :: bs => Memory.write font (Memory.set font m a b) (a + 1) bs

/-- Canonical form from an address on: addresses strictly rise and stay below 0x1000, and no entry equals what its
address reads as when unlisted. -/
def Memory.wfFrom (font : Config.Font) : Nat → Memory → Bool
  | _, [] => true
  | lo, (a, b) :: rest =>
    decide (lo ≤ a) && decide (a < Config.memSize) && decide (b ≠ resetImage font a) &&
      Memory.wfFrom font (a + 1) rest

/-- Memory is in canonical form, so that equal memories are equal lists. -/
def Memory.wf (font : Config.Font) (m : Memory) : Bool := Memory.wfFrom font 0 m

/-- Every byte of a range of `n` bytes at `addr` exists: the highest is at most 0xFFF, in unbounded arithmetic; the
empty range always does (R46). -/
def inRange (addr n : Nat) : Bool := decide (n = 0 ∨ addr + n - 1 ≤ Config.topAddress)

/-- The font of the state's machine. -/
abbrev State.font (s : State) : Config.Font := s.settings.font

/-- The byte the state's memory holds at an address, without any check. -/
def State.readByte (s : State) (a : Nat) : Byte := s.mem.get s.font a

/-- The state with consecutive bytes replaced, ascending from an address, without any check. -/
def State.writeBytes (s : State) (addr : Nat) (bytes : List Byte) : State := { s with mem := s.mem.write s.font addr bytes }

/-- `n` consecutive bytes, ascending, without any check. -/
def State.readBytes (s : State) (addr n : Nat) : List Byte := (List.range n).map (fun k => s.readByte (addr + k))

/-- `MemRead(addr, n)`: the bytes, or nothing where the range leaves memory (R47). -/
def State.memRead (s : State) (addr n : Nat) : Option (List Byte) :=
  if inRange addr n then some (s.readBytes addr n) else none

/-- `MemWrite(addr, n, v)`: all the bytes stored, or nothing where the range leaves memory (R48). -/
def State.memWrite (s : State) (addr : Nat) (bytes : List Byte) : Option State :=
  if inRange addr bytes.length then some (s.writeBytes addr bytes) else none

/-! ### Registers -/

/-- The number of VF, the only flag (R12). -/
abbrev VF : Reg := 15

/-- `V[i]` (R11): what was last written to that index. -/
def State.getV (s : State) (r : Reg) : Byte := s.V[r.val]

/-- `V[i] <- v` (R11). -/
def State.setV (s : State) (r : Reg) (b : Byte) : State := { s with V := s.V.set r.val b }

/-- `I <- v` (R13). -/
def State.setI (s : State) (w : Word) : State := { s with I := w }

/-- Load `V[k]`, `V[k+1]`, ... from consecutive bytes (R135); there is no register after VF. -/
def State.setRegs : State → Nat → List Byte → State
  | s, _, [] => s
  | s, k, b :: bs => State.setRegs { s with V := s.V.setIfInBounds k b } (k + 1) bs

/-- `V[0], ..., V[n-1]` as bytes (R134). -/
def State.regBytes (s : State) (n : Nat) : List Byte := s.V.toList.take n

/-! ### Program counter (R14): all arithmetic modulo 65536 -/

/-- `pc <- target`. -/
def State.setPc (s : State) (w : Word) : State := { s with pc := w }

/-- Past the instruction just fetched (40_step_cycle.md R82). -/
def State.advance (s : State) : State := s.setPc (s.pc + 2)

/-- `skip`: past the next instruction (R8, 42_skips.md). -/
def State.skip (s : State) : State := s.setPc (s.pc + 2)

/-- Skip when a condition holds. -/
def State.skipIf (s : State) (c : Bool) : State := if c then s.skip else s

/-- Back to the instruction just fetched (46_keypad.md R154). -/
def State.rewind (s : State) : State := s.setPc (s.pc - 2)

/-! ### Faults -/

/-- TAKING A FAULT, `raise K` (R86, R175): the latch is set and nothing else is written; nothing is saved, no mode or
address changes, control goes nowhere. There is no return from a fault (R177). -/
def State.latch (s : State) (k : Fault) : State := { s with fault := some k }

/-- The answer of a step that raises a fault. -/
def raise (k : Fault) (s : State) : Result := .next (s.latch k)

/-! ### Call stack (R15, R16) -/

/-- `stack[sp] <- w; sp <- sp + 1`, or nothing where sixteen entries are in use (R16). -/
def State.push (s : State) (w : Word) : Option State :=
  if h : s.sp.val = 16 then none
  else some { s with stack := s.stack.set s.sp.val w (by omega), sp := ⟨s.sp.val + 1, by omega⟩ }

/-- `sp <- sp − 1`, with the entry there, or nothing where the stack is empty (R16). The entry stays as a stale value
(R15, R90). -/
def State.pop (s : State) : Option (Word × State) :=
  if h : s.sp.val = 0 then none
  else some (s.stack[s.sp.val - 1]'(by omega), { s with sp := ⟨s.sp.val - 1, by omega⟩ })

end Sys2Proof.Machine
end

