-- ==== Sys2Proof/Machine/Flags.lean ====
section
/-! DEFINITION. Flags: the values written to VF, the only flag (10_state.md R12), and the writing of it. -/

namespace Sys2Proof.Machine

/-- A condition as a flag value, 1 or 0. -/
def flagByte (c : Bool) : Byte := if c then 1 else 0

/-- `V[0xF] <-` 1 if the condition holds, else 0. -/
def State.setFlag (s : State) (c : Bool) : State := s.setV VF (flagByte c)

/-- The unsigned sum of two bytes, 0..510 (R117). -/
def byteSum (a b : Byte) : Nat := a.toNat + b.toNat

/-- Carry out of bit 7: the sum exceeds 255 (R117, R123). -/
def carry (a b : Byte) : Bool := decide (byteSum a b > 255)

/-- Strictly greater, unsigned: equal operands give false (R118, R120). -/
def greater (a b : Byte) : Bool := decide (a.toNat > b.toNat)

/-- Bit 0 (R119). -/
def lowBit (a : Byte) : Bool := a.getLsbD 0

/-- Bit 7 (R121). -/
def highBit (a : Byte) : Bool := a.getLsbD 7

/-- The true sum of I and a register, 0..0x100FE (R131). -/
def indexSum (i : Word) (v : Byte) : Nat := i.toNat + v.toNat

/-- The true sum exceeds 0x0FFF (R131). -/
def indexOverflow (i : Word) (v : Byte) : Bool := decide (indexSum i v > 0x0FFF)

/-- What ADDA leaves in VF under a setting of `FX1E_ELSE`, given what VF held (R131; 92_eei_decisions.md D5). -/
def indexFlag (policy : Config.Fx1eElse) (overflow : Bool) (old : Byte) : Byte :=
  match policy with
  | .zero => flagByte overflow
  | .unchanged => if overflow then flagByte true else old

/-- `V[0xF] <-` the flag of ADDA. -/
def State.setIndexFlag (s : State) (policy : Config.Fx1eElse) (overflow : Bool) : State :=
  s.setV VF (indexFlag policy overflow (s.getV VF))

end Sys2Proof.Machine
end

