-- ==== Sys2Proof/Machine/Operands.lean ====
section
/-! DEFINITION. Operands: the operand forms of 30_encoding.md R65 and 44_index_memory.md. A register operand is
`State.getV`; an 8-bit literal is used as it stands. -/

namespace Sys2Proof.Machine

/-- `NNN` zero-extended to 16 bits (R65). -/
def addrLit (nnn : Lit12) : Word := nnn.setWidth 16

/-- A register's value zero-extended to 16 bits (R93, R131). -/
def wide (b : Byte) : Word := b.setWidth 16

/-- The base of every data access: the natural number in I, not reduced (R46; 44_index_memory.md). -/
def State.dataAddr (s : State) : Nat := s.I.toNat

/-- How many registers the count field X of STM and LDM names: V0..VX (R134, R135). -/
def blockCount (x : Reg) : Nat := x.val + 1

/-- How many bytes BCD stores (R133). -/
def bcdCount : Nat := 3

/-- The three decimal digits of a byte, most significant first (R133). -/
def bcdDigits (v : Byte) : List Byte :=
  [BitVec.ofNat 8 (v.toNat / 100), BitVec.ofNat 8 (v.toNat / 10 % 10), BitVec.ofNat 8 (v.toNat % 10)]

/-- The address of the glyph of a byte's low nibble (R132). -/
def glyphAddr (v : Byte) : Word := BitVec.ofNat 16 (Config.fontBase + Config.glyphBytes * (v &&& 0xF).toNat)

/-- The key a register's value names, or nothing where it exceeds 0xF; the value is not masked (R152, R153). -/
def keyIndex (v : Byte) : Option Nat := if v.toNat > 0xF then none else some v.toNat

/-- Key `k` is down in a mask (R19). -/
def keyIsDown (mask : BitVec 16) (k : Nat) : Bool := mask.getLsbD k

/-- The least key that is down in a mask (R154). -/
def lowestKey (mask : BitVec 16) : Option Nat := (List.range 16).find? (keyIsDown mask)

/-- The start column of a sprite: VX mod 64 (R141). -/
def startColumn (v : Byte) : Nat := v.toNat % Config.fbWidth

/-- The start row of a sprite: VY mod 32 (R141). -/
def startRow (v : Byte) : Nat := v.toNat % Config.fbHeight

/-- The range of bytes an instruction names in memory, base and count; the count is 0 where it names none (R40, R46). -/
def dataRange (i : Instr) (s : State) : Nat × Nat :=
  match i with
  | .drw _ _ n => (s.dataAddr, n.val)
  | .bcd _ => (s.dataAddr, bcdCount)
  | .stm x => (s.dataAddr, blockCount x)
  | .ldm x => (s.dataAddr, blockCount x)
  | .cls | .ret | .jp _ | .call _ | .sei _ _ | .snei _ _ | .se _ _ | .ldi _ _ | .addi _ _ | .mov _ _ | .or _ _
  | .and _ _ | .xor _ _ | .add _ _ | .sub _ _ | .shr _ _ | .subn _ _ | .shl _ _ | .sne _ _ | .lda _ | .jp0 _
  | .rnd _ _ | .skp _ | .sknp _ | .gdt _ | .wkey _ | .sdt _ | .sst _ | .adda _ | .font _ => (s.dataAddr, 0)

/-- The instruction stores to the range it names (R40): BCD and STM do, no other. -/
def stores (i : Instr) : Bool :=
  match i with
  | .bcd _ | .stm _ => true
  | .cls | .ret | .jp _ | .call _ | .sei _ _ | .snei _ _ | .se _ _ | .ldi _ _ | .addi _ _ | .mov _ _ | .or _ _
  | .and _ _ | .xor _ _ | .add _ _ | .sub _ _ | .shr _ _ | .subn _ _ | .shl _ _ | .sne _ _ | .lda _ | .jp0 _
  | .rnd _ _ | .drw _ _ _ | .skp _ | .sknp _ | .gdt _ | .wkey _ | .sdt _ | .sst _ | .adda _ | .font _
  | .ldm _ => false

end Sys2Proof.Machine
end

