-- ==== Sys2Proof/Machine/Alu.lean ====
section
/-! DEFINITION. Alu: the meanings of LDI to SHL and RND (43_alu.md). Statement order is execution order (R110): each
`s1` below is the register file as the first statement left it, and what reads `s1` reads that. -/

namespace Sys2Proof.Machine

/-- `6XNN` (R111). -/
def execLdi (x : Reg) (nn : Byte) (s : State) : Result := .next (s.setV x nn)

/-- `7XNN` (R112): wraps, no flag. -/
def execAddi (x : Reg) (nn : Byte) (s : State) : Result := .next (s.setV x (s.getV x + nn))

/-- `8XY0` (R113). -/
def execMov (x y : Reg) (s : State) : Result := .next (s.setV x (s.getV y))

/-- `8XY1` (R114): the result, then VF := 0. -/
def execOr (x y : Reg) (s : State) : Result := .next ((s.setV x (s.getV x ||| s.getV y)).setFlag false)

/-- `8XY2` (R115): the result, then VF := 0. -/
def execAnd (x y : Reg) (s : State) : Result := .next ((s.setV x (s.getV x &&& s.getV y)).setFlag false)

/-- `8XY3` (R116): the result, then VF := 0. -/
def execXor (x y : Reg) (s : State) : Result := .next ((s.setV x (s.getV x ^^^ s.getV y)).setFlag false)

/-- `8XY4` (R117): the sum is computed once, before any write; the result, then the carry. -/
def execAdd (x y : Reg) (s : State) : Result :=
  .next ((s.setV x (BitVec.ofNat 8 (byteSum (s.getV x) (s.getV y)))).setFlag (carry (s.getV x) (s.getV y)))

/-- `8XY5` (R118): the flag, then the difference of what the registers then hold. -/
def execSub (x y : Reg) (s : State) : Result :=
  let s1 := s.setFlag (greater (s.getV x) (s.getV y))
  .next (s1.setV x (s1.getV x - s1.getV y))

/-- `8XY6` (R119): the flag, then the shift of what VX then holds; VY is not read. -/
def execShr (x _y : Reg) (s : State) : Result :=
  let s1 := s.setFlag (lowBit (s.getV x))
  .next (s1.setV x (s1.getV x >>> 1))

/-- `8XY7` (R120): the flag, then the difference of what the registers then hold. -/
def execSubn (x y : Reg) (s : State) : Result :=
  let s1 := s.setFlag (greater (s.getV y) (s.getV x))
  .next (s1.setV x (s1.getV y - s1.getV x))

/-- `8XYE` (R121): the flag, then the shift of what VX then holds; VY is not read. -/
def execShl (x _y : Reg) (s : State) : Result :=
  let s1 := s.setFlag (highBit (s.getV x))
  .next (s1.setV x (s1.getV x <<< 1))

/-- `draw_byte()` (R8, R22, R122): the next free byte, and the state whose stream has moved on. -/
def State.drawByte (s : State) : Byte × State := (Config.randomByte s.draws, { s with draws := s.draws + 1 })

/-- `CXNN` (R122). -/
def execRnd (x : Reg) (nn : Byte) (s : State) : Result := .next (s.drawByte.2.setV x (s.drawByte.1 &&& nn))

end Sys2Proof.Machine
end

