-- ==== Sys2Proof/Machine/Control.lean ====
section
/-! DEFINITION. Control: the meanings of RET, JP, CALL, JP0 (41_control_flow.md). In every meaning pc has already been
advanced past the instruction (40_step_cycle.md R82). -/

namespace Sys2Proof.Machine

/-- `00EE` (R90). -/
def execRet (s : State) : Result :=
  match s.pop with
  | none => raise .stackUnderflow s
  | some (w, t) => .next (t.setPc w)

/-- `1NNN` (R91). -/
def execJp (nnn : Lit12) (s : State) : Result := .next (s.setPc (addrLit nnn))

/-- `2NNN` (R92): the pushed pc is the advanced one, the return address. -/
def execCall (nnn : Lit12) (s : State) : Result :=
  match s.push s.pc with
  | none => raise .stackOverflow s
  | some t => .next (t.setPc (addrLit nnn))

/-- `BNNN` (R93): always V0; the sum is not reduced to 12 bits. -/
def execJp0 (nnn : Lit12) (s : State) : Result := .next (s.setPc (wide (s.getV 0) + addrLit nnn))

end Sys2Proof.Machine
end

