-- ==== Sys2Proof/Machine/Display.lean ====
section
/-! DEFINITION. Display: the XOR raster engine and the meanings of CLS and DRW (45_display.md). -/

namespace Sys2Proof.Machine

/-- `fb[y][x]`: row y from the top, column x from the left; column x is bit 63 − x of its row (R20). Outside the
screen it is false. -/
def Screen.pixel (f : Screen) (y x : Nat) : Bool := (f[y]?.getD 0).getMsbD x

/-- `fb[y][x] <- fb[y][x] ^ 1`. -/
def Screen.toggle (f : Screen) (y x : Nat) : Screen :=
  f.setIfInBounds y (f[y]?.getD 0 ^^^ BitVec.twoPow 64 (63 - x))

/-- The column of sprite pixel `c` of a sprite that starts at column `x0`, or nothing where the pixel is dropped
(R141 with `DRAW_X_POLICY`; 92_eei_decisions.md D4). -/
def spriteColumn (policy : Config.DrawXPolicy) (x0 c : Nat) : Option Nat :=
  if x0 + c ≤ 63 then some (x0 + c)
  else
    match policy with
    | .clip => none
    | .wrap => some ((x0 + c) % Config.fbWidth)

/-- A screen being drawn on, and whether a set pixel has been cleared so far. -/
abbrev Canvas := Screen × Bool

/-- One sprite pixel: `byte[7 − c]`, bit 7 the leftmost (R140, R141). -/
def drawPixel (policy : Config.DrawXPolicy) (x0 y : Nat) (byte : Byte) (acc : Canvas) (c : Nat) : Canvas :=
  if byte.getLsbD (7 - c) then
    match spriteColumn policy x0 c with
    | none => acc
    | some x => (acc.1.toggle y x, acc.2 || acc.1.pixel y x)
  else acc

/-- One sprite row on screen row `y`; rows below 31 are clipped (R141). -/
def drawRow (policy : Config.DrawXPolicy) (x0 y : Nat) (byte : Byte) (acc : Canvas) : Canvas :=
  if y > 31 then acc else [0, 1, 2, 3, 4, 5, 6, 7].foldl (drawPixel policy x0 y byte) acc

/-- The sprite rows on screen rows `y`, `y + 1`, ... (R141). -/
def drawRows (policy : Config.DrawXPolicy) (x0 : Nat) : Nat → List Byte → Canvas → Canvas
  | _, [], acc => acc
  | y, byte :: rest, acc => drawRows policy x0 (y + 1) rest (drawRow policy x0 y byte acc)

/-- `00E0` (R142): `clear()`. -/
def execCls (s : State) : Result := .next { s with fb := Screen.blank }

/-- DRW of the given rows under a setting of `DRAW_X_POLICY`: the position is latched first, VF is written last
(R141). -/
def State.drawSprite (s : State) (policy : Config.DrawXPolicy) (x y : Reg) (rows : List Byte) : State :=
  let drawn := drawRows policy (startColumn (s.getV x)) (startRow (s.getV y)) rows (s.fb, false)
  State.setFlag { s with fb := drawn.1 } drawn.2

/-- `DXYN` (R141): the whole range of `n` rows is read first. -/
def execDrw (x y : Reg) (n : Rows) (s : State) : Result :=
  match s.memRead s.dataAddr n.val with
  | none => raise .memoryBounds s
  | some rows => .next (s.drawSprite s.settings.drawXPolicy x y rows)

end Sys2Proof.Machine
end

