-- ==== Sys2Proof/Machine/Index.lean ====
section
/-! DEFINITION. Index: the meanings of LDA, ADDA, FONT, BCD, STM, LDM (44_index_memory.md). I is left as it was by BCD,
STM and LDM. -/

namespace Sys2Proof.Machine

/-- `ANNN` (R130). -/
def execLda (nnn : Lit12) (s : State) : Result := .next (s.setI (addrLit nnn))

/-- ADDA under a setting of `FX1E_ELSE` (R131): the sum is computed once, I is written, then the flag. -/
def addIndex (policy : Config.Fx1eElse) (x : Reg) (s : State) : State :=
  (s.setI (BitVec.ofNat 16 (indexSum s.I (s.getV x)))).setIndexFlag policy (indexOverflow s.I (s.getV x))

/-- `FX1E` (R131). -/
def execAdda (x : Reg) (s : State) : Result := .next (addIndex s.settings.fx1eElse x s)

/-- `FX29` (R132). -/
def execFont (x : Reg) (s : State) : Result := .next (s.setI (glyphAddr (s.getV x)))

/-- `FX33` (R133). -/
def execBcd (x : Reg) (s : State) : Result :=
  match s.memWrite s.dataAddr (bcdDigits (s.getV x)) with
  | none => raise .memoryBounds s
  | some t => .next t

/-- `FX55` (R134). -/
def execStm (x : Reg) (s : State) : Result :=
  match s.memWrite s.dataAddr (s.regBytes (blockCount x)) with
  | none => raise .memoryBounds s
  | some t => .next t

/-- `FX65` (R135). -/
def execLdm (x : Reg) (s : State) : Result :=
  match s.memRead s.dataAddr (blockCount x) with
  | none => raise .memoryBounds s
  | some bytes => .next (s.setRegs 0 bytes)

end Sys2Proof.Machine
end

