-- ==== Sys2Proof/Machine/Keypad.lean ====
section
/-! DEFINITION. Keypad: the meanings of SKP, SKNP, WKEY (46_keypad.md). None of them writes the key mask. -/

namespace Sys2Proof.Machine

/-- `EX9E` (R152): the value is checked before the key is read. -/
def execSkp (x : Reg) (s : State) : Result :=
  match keyIndex (s.getV x) with
  | none => raise .invalidOpcode s
  | some k => .next (s.skipIf (keyIsDown s.keys k))

/-- `EXA1` (R153): the value is checked before the key is read. -/
def execSknp (x : Reg) (s : State) : Result :=
  match keyIndex (s.getV x) with
  | none => raise .invalidOpcode s
  | some k => .next (s.skipIf (!keyIsDown s.keys k))

/-- `FX0A` (R154): with no key down, back to this instruction; else the lowest key down. -/
def execWkey (x : Reg) (s : State) : Result :=
  match lowestKey s.keys with
  | none => .next s.rewind
  | some k => .next (s.setV x (BitVec.ofNat 8 k))

end Sys2Proof.Machine
end

