-- ==== Sys2Proof/Machine/Skips.lean ====
section
/-! DEFINITION. Skips: the meanings of SEI, SNEI, SE, SNE (42_skips.md). -/

namespace Sys2Proof.Machine

/-- `3XNN` (R100). -/
def execSei (x : Reg) (nn : Byte) (s : State) : Result := .next (s.skipIf (s.getV x == nn))

/-- `4XNN` (R101). -/
def execSnei (x : Reg) (nn : Byte) (s : State) : Result := .next (s.skipIf (s.getV x != nn))

/-- `5XY0` (R102). -/
def execSe (x y : Reg) (s : State) : Result := .next (s.skipIf (s.getV x == s.getV y))

/-- `9XY0` (R103). -/
def execSne (x y : Reg) (s : State) : Result := .next (s.skipIf (s.getV x != s.getV y))

end Sys2Proof.Machine
end

