-- ==== Sys2Proof/Machine/Timers.lean ====
section
/-! DEFINITION. Timers: the meanings of GDT, SDT, SST (47_timers.md). -/

namespace Sys2Proof.Machine

/-- `FX07` (R160). -/
def execGdt (x : Reg) (s : State) : Result := .next (s.setV x s.dt)

/-- `FX15` (R161). -/
def execSdt (x : Reg) (s : State) : Result := .next { s with dt := s.getV x }

/-- `FX18` (R162). -/
def execSst (x : Reg) (s : State) : Result := .next { s with st := s.getV x }

end Sys2Proof.Machine
end

