-- ==== Sys2Proof/Machine/Interpreter.lean ====
section
/-! DEFINITION. Interpreter: the event `Step` (40_step_cycle.md): fetch, advance, decode, execute. -/

namespace Sys2Proof.Machine

/-- Fetch (R81, R49): the two bytes at pc, or nothing where pc + 1 exceeds 0xFFF. -/
def State.fetch (s : State) : Option (List Byte) := s.memRead s.pc.toNat 2

/-- Decode and execute the fetched bytes; pc is already advanced (R82 to R84). -/
def State.execute (s : State) (bytes : List Byte) : Result :=
  match decode bytes with
  | .error _ => raise .invalidOpcode s
  | .ok (i, _) => exec i s

/-- `Step` (R80): nothing on a halted block (R176); else one instruction. -/
def State.interpret (s : State) : Result :=
  match s.fault with
  | some _ => .next s
  | none =>
    match s.fetch with
    | none => raise .memoryBounds s
    | some bytes => s.advance.execute bytes

end Sys2Proof.Machine
end

