-- ==== Sys2Proof/Machine/Events.lean ====
section
/-! DEFINITION. Events: what each event of 60_exceptions.md R180 does to the state, and what the host can query. -/

namespace Sys2Proof.Machine

/-- One tick of one counter: down by one, and 0 stays 0 (R163). -/
def countDown (c : Byte) : Byte := if c = 0 then 0 else c - 1

/-- `Tick` (R163). -/
def State.tick (s : State) : State := { s with dt := countDown s.dt, st := countDown s.st }

/-- `KeyDown(k)` (R150). -/
def State.keyDown (s : State) (k : Key) : State := { s with keys := s.keys ||| BitVec.twoPow 16 k.val }

/-- `KeyUp(k)` (R151). -/
def State.keyUp (s : State) (k : Key) : State := { s with keys := s.keys &&& ~~~(BitVec.twoPow 16 k.val) }

/-- `CommitFrame` (R147). -/
def State.commitFrame (s : State) : State := { s with prev := s.fb }

/-- The state a successful `Load` leaves (R29, R200, R201): every field at its reset value, the program at 0x200. The
three fields of the model's own are not the machine's and go on. -/
def State.loaded (s : State) (bytes : List Byte) : State :=
  { (State.resetWith s.settings).writeBytes Config.progBase bytes with draws := s.draws, schedule := s.schedule }

/-- A word of `w` bits that the failed `Load` numbered `k` leaves unspecified. -/
def unknown (k w : Nat) (item : Config.Item) : BitVec w := BitVec.ofNat w (Config.unspecified k item)

/-- The memory the failed `Load` numbered `k` leaves in a machine with a font: 4096 unspecified bytes. -/
@[irreducible] def unknownMemory (font : Config.Font) (k : Nat) : Memory :=
  Memory.write font [] 0 ((List.range Config.memSize).map (fun a => unknown k 8 (.mem a)))

/-- The state a failed `Load` leaves (R203): the latch holds `LoadError`, every other piece of the machine's state is
a free value. -/
def State.loadFailed (s : State) : State where
  V := Vector.ofFn (fun r => unknown s.draws 8 (.V r))
  I := unknown s.draws 16 .I
  pc := unknown s.draws 16 .pc
  stack := Vector.ofFn (fun k => unknown s.draws 16 (.stack k.val))
  sp := Fin.ofNat 17 (Config.unspecified s.draws .sp)
  dt := unknown s.draws 8 .dt
  st := unknown s.draws 8 .st
  keys := unknown s.draws 16 .keys
  fb := Vector.ofFn (fun y => unknown s.draws 64 (.fb y.val))
  prev := Vector.ofFn (fun y => unknown s.draws 64 (.prev y.val))
  mem := unknownMemory s.font s.draws
  fault := some .loadError
  draws := s.draws + 1
  schedule := s.schedule
  settings := s.settings

/-- `Load(bytes)` (R200, R202, R203): the length alone is checked. -/
def State.load (s : State) (bytes : List Byte) : State :=
  if bytes.length > Config.progMax then s.loadFailed else s.loaded bytes

/-- The effect of one event (R180). On a faulted block the events other than `Step` act as usual (R176;
92_eei_decisions.md D25, log entry 7). -/
def State.deliver (s : State) (e : Event) : Result :=
  match e with
  | .step => s.interpret
  | .tick => .next s.tick
  | .keyDown k => .next (s.keyDown k)
  | .keyUp k => .next (s.keyUp k)
  | .load bytes => .next (s.load bytes)
  | .commitFrame => .next s.commitFrame

/-! ### Outputs and queries: they change nothing -/

/-- The tone output is a level (R165). -/
def State.tone (s : State) : Bool := s.st != 0

/-- The signals to the audio sink (R166). -/
inductive ToneSignal where
  | start | stop
  deriving DecidableEq, Repr

/-- The edge of the tone between two states (R165, R166). -/
def toneEdge (s t : State) : Option ToneSignal :=
  match s.tone, t.tone with
  | false, true => some .start
  | true, false => some .stop
  | false, false => none
  | true, true => none

/-- The signal of an event that takes the state from `s` to `t` (R166): the edge of the tone. A failed `Load` leaves the
sound timer unspecified (R203): it makes no edge and sends nothing (log entry 18). -/
def toneSignal (e : Event) (s t : State) : Option ToneSignal :=
  match e with
  | .load bytes => if bytes.length > Config.progMax then none else toneEdge s t
  | .step => toneEdge s t
  | .tick => toneEdge s t
  | .keyDown _ => toneEdge s t
  | .keyUp _ => toneEdge s t
  | .commitFrame => toneEdge s t

/-- `hasChanged()`: `fb` differs from `prev` in some pixel (R146). -/
def State.hasChanged (s : State) : Bool := decide (s.fb ≠ s.prev)

end Sys2Proof.Machine
end

