-- ==== Sys2Proof/Machine/Step.lean ====
section
/-! DEFINITION. Step: one move of the machine, and the host's way to place an instruction under the next fetch. -/

namespace Sys2Proof.Machine

/-- One move: the oldest event of the schedule is delivered; with an empty schedule the interpreter performs one
`Step` (60_exceptions.md R182; log entry 3). -/
def step (s : State) : Host.Outcome State Fault Refusal :=
  match s.schedule with
  | [] => s.interpret
  | e :: rest => State.deliver { s with schedule := rest } e

/-- The address at which `withFetchWord` places its word: pc, or the program base where pc cannot be fetched from. -/
def State.fetchSlot (s : State) : Word := if s.pc.toNat + 1 ≤ Config.topAddress then s.pc else 0x200

/-- `s` with an opcode-table word stored where the next step fetches, so that the next step runs it: no event before
it, no fault latched. -/
def State.withFetchWord (s : State) (nbits w : Nat) : State :=
  { s with
    pc := s.fetchSlot
    mem := s.mem.write s.font s.fetchSlot.toNat (wordBytes (tableWord nbits w))
    fault := none
    schedule := [] }

end Sys2Proof.Machine
end

