-- ==== Sys2Proof/Machine/Report.lean ====
section
/-! DEFINITION. Report: what the host is told when an event raises a fault: the kind and `info` (60_exceptions.md R170,
R175; 40_step_cycle.md R86, R88). It is an output computed from the event and the states around it; no rule reads it,
and it is no state (92_eei_decisions.md D29). -/

namespace Sys2Proof.Machine

/-- The column "info reported" of R170. -/
inductive FaultInfo where
  /-- LoadError: the length of the image. -/
  | length (n : Nat)
  /-- StackOverflow, StackUnderflow: the address the instruction was fetched from. -/
  | insn (pcInsn : Word)
  /-- InvalidOpcode: the opcode and the address it was fetched from. -/
  | opcode (op : List Byte) (pcInsn : Word)
  /-- MemoryBounds: the highest address of the range. -/
  | address (highest : Nat)
  deriving DecidableEq, Repr

/-- The highest address of the access that leaves memory in a `Step` from `s`: the fetch's or the data access's. -/
def faultAddress (s : State) : Nat :=
  match s.fetch with
  | none => s.pc.toNat + 1
  | some bytes =>
    match decode bytes with
    | .error _ => s.pc.toNat + 1
    | .ok (i, _) => (dataRange i s).1 + (dataRange i s).2 - 1

/-- What `Step` from `s` reports with a fault of this kind. No `Step` raises LoadError (R170). -/
def stepInfo (s : State) (k : Fault) : FaultInfo :=
  match k with
  | .loadError => .length 0
  | .stackOverflow => .insn s.pc
  | .stackUnderflow => .insn s.pc
  | .invalidOpcode => .opcode (s.readBytes s.pc.toNat 2) s.pc
  | .memoryBounds => .address (faultAddress s)

/-- What the host is told of an event from `s` that led to `t`: nothing, or the fault it raised and its `info`. -/
def report (e : Event) (s t : State) : Option (Fault × FaultInfo) :=
  match e with
  | .step => if s.fault = none then t.fault.map (fun k => (k, stepInfo s k)) else none
  | .load bytes => t.fault.map (fun k => (k, .length bytes.length))
  | .tick => none
  | .keyDown _ => none
  | .keyUp _ => none
  | .commitFrame => none

end Sys2Proof.Machine
end

