-- ==== Sys2Proof/Safety.lean ====
section
/-! DEFINITION. Safety: the terms claims use. What an instruction may write (10_state.md R27), what it means that the
rest is unchanged (R87), runs and schedules (60_exceptions.md R182), a safe run (R175), the end of a run (R222), the
invariant of R30. -/

namespace Sys2Proof.Machine

/-! ### What may change -/

/-- The pieces of state that some instruction or event may change (R10 and two of the model's own). -/
inductive Part where
  | V (r : Reg)
  | I
  | pc
  | stack
  | sp
  | dt
  | st
  | keys
  | fb
  | prev
  | mem
  | fault
  | draws
  | schedule
  deriving DecidableEq, Repr

/-- Every piece of state outside `w` is the same in `t` as in `s`, the machine's settings always; memory is compared byte
by byte. -/
structure SameExcept (w : List Part) (s t : State) : Prop where
  V : ∀ r : Reg, Part.V r ∉ w → t.getV r = s.getV r
  I : Part.I ∉ w → t.I = s.I
  pc : Part.pc ∉ w → t.pc = s.pc
  stack : Part.stack ∉ w → t.stack = s.stack
  sp : Part.sp ∉ w → t.sp = s.sp
  dt : Part.dt ∉ w → t.dt = s.dt
  st : Part.st ∉ w → t.st = s.st
  keys : Part.keys ∉ w → t.keys = s.keys
  fb : Part.fb ∉ w → t.fb = s.fb
  prev : Part.prev ∉ w → t.prev = s.prev
  mem : Part.mem ∉ w → ∀ a, t.readByte a = s.readByte a
  fault : Part.fault ∉ w → t.fault = s.fault
  draws : Part.draws ∉ w → t.draws = s.draws
  schedule : Part.schedule ∉ w → t.schedule = s.schedule
  settings : t.settings = s.settings

/-- An address outside `n` bytes at `base`. -/
def outside (base n a : Nat) : Prop := a < base ∨ base + n ≤ a

/-- Every byte of memory outside `n` bytes at `base` reads in `t` as in `s`. -/
def MemSameOutside (base n : Nat) (s t : State) : Prop := ∀ a, outside base n a → t.readByte a = s.readByte a

/-- V0..VX as parts. -/
def partsUpTo (x : Reg) : List Part := ((List.finRange 16).filter (fun r => decide (r ≤ x))).map Part.V

/-- The W entries of R27's access table, row by row. The execute phase touches pc only where it is listed; an
instruction that has a check of its own may write the fault latch (R178). -/
def writes (i : Instr) : List Part :=
  match i with
  | .cls => [.fb]
  | .ret => [.pc, .sp, .fault]
  | .jp _ => [.pc]
  | .call _ => [.pc, .stack, .sp, .fault]
  | .sei _ _ | .snei _ _ | .se _ _ | .sne _ _ => [.pc]
  | .ldi x _ | .addi x _ | .mov x _ => [.V x]
  | .or x _ | .and x _ | .xor x _ | .add x _ | .sub x _ | .subn x _ | .shr x _ | .shl x _ => [.V x, .V VF]
  | .lda _ => [.I]
  | .jp0 _ => [.pc]
  | .rnd x _ => [.V x, .draws]
  | .drw _ _ _ => [.V VF, .fb, .fault]
  | .skp _ | .sknp _ => [.pc, .fault]
  | .gdt x => [.V x]
  | .wkey x => [.V x, .pc]
  | .sdt _ => [.dt]
  | .sst _ => [.st]
  | .adda _ => [.I, .V VF]
  | .font _ => [.I]
  | .bcd _ | .stm _ => [.mem, .fault]
  | .ldm x => .fault :: partsUpTo x

/-! ### Runs -/

/-- A run: the events of a schedule delivered in order (R182). -/
def runEvents : List Event → State → Result
  | [], s => .next s
  | e :: es, s =>
    match s.deliver e with
    | .next t => runEvents es t
    | .fault r => .fault r
    | .refused r => .refused r

/-- The tone signals a run sends, in order (R166). -/
def signals : List Event → State → List ToneSignal
  | [], _ => []
  | e :: es, s =>
    match s.deliver e with
    | .next t => (toneSignal e s t).toList ++ signals es t
    | .fault _ => []
    | .refused _ => []

/-- Signals alternate, beginning with a start where the tone is off and with a stop where it is on (R166). -/
def alternate : Bool → List ToneSignal → Bool
  | _, [] => true
  | false, .start :: rest => alternate true rest
  | true, .stop :: rest => alternate false rest
  | false, .stop :: _ => false
  | true, .start :: _ => false

/-- States a run can be in: after a successful `Load`, and after any event from such a state (R182). -/
inductive Reachable : State → Prop where
  | loaded (s : State) (bytes : List Byte) : bytes.length ≤ Config.progMax → Reachable (s.loaded bytes)
  | event (s t : State) (e : Event) : Reachable s → s.deliver e = .next t → Reachable t

/-- A safe run: no fault is raised (R175: a faulted state is never a successful end). -/
def SafeRun (es : List Event) (s : State) : Prop := ∃ t, runEvents es s = .next t ∧ t.fault = none

/-- The next instruction: what the bytes at pc decode to. -/
def State.nextInstr (s : State) : Option Instr :=
  match s.fetch with
  | none => none
  | some bytes =>
    match decode bytes with
    | .error _ => none
    | .ok (i, _) => some i

/-- The program has reached its end: pc is at a jump to itself and no fault is raised (R222). -/
def State.atEnd (s : State) : Prop := s.fault = none ∧ ∃ nnn, s.nextInstr = some (.jp nnn) ∧ addrLit nnn = s.pc

/-! ### What a sprite covers -/

/-- Pixel `c` of a sprite row that starts at column `x0` belongs to screen column `col`: under clip the column `x0 + c`,
which may lie beyond the screen; under wrap that column mod 64 (R141 with `DRAW_X_POLICY`). -/
def pixelLiesOn (policy : Config.DrawXPolicy) (x0 col c : Nat) : Bool :=
  match policy with
  | .clip => decide (col = x0 + c)
  | .wrap => decide (col = (x0 + c) % 64)

/-- The sprite of `DRW x y n` has a set pixel on screen row `row`, column `col`, with no wrapping at the lower edge and
the machine's policy at the right edge (R140, R141): row r of the sprite is the byte at I + r, its bit 7 − c is
pixel c. -/
def spriteBit (s : State) (x y : Reg) (n : Rows) (row col : Nat) : Bool :=
  decide (startRow (s.getV y) ≤ row) && decide (row < startRow (s.getV y) + n.val) &&
  (List.range 8).any (fun c =>
    (s.readByte (s.dataAddr + (row - startRow (s.getV y)))).getLsbD (7 - c) &&
      pixelLiesOn s.settings.drawXPolicy (startColumn (s.getV x)) col c)

/-- Some set sprite pixel of `DRW x y n` falls on a lit pixel of the screen. -/
def collides (s : State) (x y : Reg) (n : Rows) : Prop :=
  ∃ row col, row < 32 ∧ col < 64 ∧ s.fb.pixel row col = true ∧ spriteBit s x y n row col = true

/-! ### The invariant of R30 -/

/-- An entry of the call stack; there is none past the sixteenth. -/
def State.stackEntry (s : State) (k : Nat) : Word := s.stack[k]?.getD 0

/-- pc and the valid stack entries lie where a run from a successful `Load` can bring them (R14, R30). -/
abbrev State.bounded (s : State) : Prop :=
  s.pc.toNat ≤ 0x10FE ∧ ∀ k, k < s.sp.val → 2 ≤ (s.stackEntry k).toNat ∧ (s.stackEntry k).toNat ≤ 0x1000

/-- Memory is in canonical form; and unless the last `Load` failed, which leaves pc and the stack unspecified, the
bounds of R30 hold. (R30's bounds on V, dt, st, I and sp are the types of those fields.) -/
abbrev State.Inv (s : State) : Prop := s.mem.wf s.font = true ∧ (s.fault ≠ some Fault.loadError → s.bounded)

end Sys2Proof.Machine
end

