-- ==== Sys2Proof/Certificates/Slice0/Obligations.lean ====
section
/-! DEFINITION. Obligations: what the provers are asked to prove of the model. Each docstring names the rule of spec/
it formalises; where a statement rests on a decision of the spec (D<n> of 92_eei_decisions.md) or on a choice of the
model (a log entry), the docstring says so. -/

open Sys2Proof Sys2Proof.Machine

/-! ### Encoding (30_encoding.md) -/

/-- ENCODING AND DECODING ARE INVERSE (R60 to R66): every operand at every value survives encoding and decoding,
whatever bytes follow; and each legal word has one meaning and one encoding, the unused Y of SHR and SHL included. -/
def Obligations.EncodeAndDecodeAreInverse : Prop :=
  (∀ (i : Instr) (rest : List Byte), decode (encode i ++ rest) = .ok (i, rest)) ∧
  ∀ (w : Word) (i : Instr), decodeWord w = .ok i → encodeWord i = w

/-- The decoding procedure of R64 and the opcode map of R63 agree: a row selects a word by mask and match exactly when
the word decodes to an instruction of that row, and no word is selected by two rows. -/
def Obligations.OpcodeMapSelectsDecodedRow : Prop :=
  (∀ (w : Word) (o : Op), o.selects w = true ↔ ∃ i, decodeWord w = .ok i ∧ i.op = o) ∧
  ∀ (w : Word) (o p : Op), o.selects w = true → p.selects w = true → o = p

/-- The illegal encodings are exactly those of R68's table. -/
def Obligations.IllegalEncodingsByFamily : Prop :=
  ∀ w : Word, (∃ e, decodeWord w = .error e) ↔
    (fieldF w = 0x0 ∧ w ≠ 0x00E0 ∧ w ≠ 0x00EE) ∨
    (fieldF w = 0x5 ∧ fieldN w ≠ 0) ∨
    (fieldF w = 0x8 ∧ (fieldN w).val ∈ [0x8, 0x9, 0xA, 0xB, 0xC, 0xD, 0xF]) ∨
    (fieldF w = 0x9 ∧ fieldN w ≠ 0) ∨
    (fieldF w = 0xE ∧ (fieldNN w).toNat ∉ [0x9E, 0xA1]) ∨
    (fieldF w = 0xF ∧ (fieldNN w).toNat ∉ [0x07, 0x0A, 0x15, 0x18, 0x1E, 0x29, 0x33, 0x55, 0x65])

/-- Words of 95_test_vectors.md 2.1, written out, decode to what they stand for: the first word's bytes in memory
order too (R49). -/
def Obligations.SampleWordsDecode : Prop :=
  decode [0xD1, 0x25] = .ok (.drw 1 2 5, []) ∧
  decodeWord 0x00E0 = .ok .cls ∧
  decodeWord 0x00EE = .ok .ret ∧
  decodeWord 0x1ABC = .ok (.jp 0xABC) ∧
  decodeWord 0x6C7F = .ok (.ldi 0xC 0x7F) ∧
  decodeWord 0x8AB4 = .ok (.add 0xA 0xB) ∧
  decodeWord 0xE1A1 = .ok (.sknp 1) ∧
  decodeWord 0xF155 = .ok (.stm 1)

/-- An instruction as written assembles to itself, and only well-formed lines assemble (R71). The assembler syntax is
the spec's own choice (D21). -/
def Obligations.WrittenInstructionAssembles : Prop :=
  (∀ i : Instr, i.wellFormed = true ∧ i.written.assemble = some i) ∧
  ∀ l : Line, l.assemble.isSome = true ↔ l.wellFormed = true

/-! ### The step cycle (40_step_cycle.md) -/

/-- A STEP RUNS THE DECODED INSTRUCTION: with no event pending and no fault latched, when the two bytes at pc lie in
memory and decode, high byte first, to `i`, a step is the execution of `i` with pc moved past its two bytes (R80 to
R84). That a pending event comes first is the model's choice (log entry 3). -/
def Obligations.StepRunsDecodedInstruction : Prop :=
  ∀ (s : State) (i : Instr),
    s.schedule = [] → s.fault = none → s.pc.toNat + 1 ≤ 0xFFF →
    decodeWord (s.readByte s.pc.toNat ++ s.readByte (s.pc.toNat + 1)) = .ok i →
    step s = exec i (s.setPc (s.pc + 2))

/-- A fetch that leaves memory raises MemoryBounds, naming pc + 1, and changes nothing else, pc included (R81; the
unchanged pc is the spec's decision D11). -/
def Obligations.FetchBeyondMemoryFaults : Prop :=
  ∀ s : State, s.schedule = [] → s.fault = none → s.pc.toNat + 1 > 0xFFF →
    ∃ t, step s = .next t ∧ t.fault = some .memoryBounds ∧ SameExcept [.fault] s t ∧
      report .step s t = some (.memoryBounds, .address (s.pc.toNat + 1))

/-- R83: a fetched word that decodes to no instruction raises InvalidOpcode, reporting the word and its address; pc
stays advanced and nothing else changes. -/
def Obligations.IllegalWordRaisesInvalidOpcode : Prop :=
  ∀ (s : State) (e : DecodeError),
    s.schedule = [] → s.fault = none → s.pc.toNat + 1 ≤ 0xFFF →
    decodeWord (s.readByte s.pc.toNat ++ s.readByte (s.pc.toNat + 1)) = .error e →
    ∃ t, step s = .next t ∧ t.fault = some .invalidOpcode ∧ t.pc = s.pc + 2 ∧ SameExcept [.pc, .fault] s t ∧
      report .step s t =
        some (.invalidOpcode, .opcode [s.readByte s.pc.toNat, s.readByte (s.pc.toNat + 1)] s.pc)

/-- While a fault is latched, a step changes nothing (R176; the latch is the spec's decision D10). -/
def Obligations.HaltedBlockIgnoresStep : Prop :=
  ∀ s : State, s.schedule = [] → s.fault ≠ none → step s = .next s

/-- A step that raises a fault has written nothing but the latch and pc, which is past the instruction, or unmoved
where the fetch itself faulted (R86; the state left is the spec's decision D11). -/
def Obligations.FaultingStepWritesOnlyPcAndLatch : Prop :=
  ∀ s t : State, s.schedule = [] → s.fault = none → step s = .next t → t.fault ≠ none →
    SameExcept [.pc, .fault] s t ∧ t.pc = if s.pc.toNat + 1 > 0xFFF then s.pc else s.pc + 2

/-- Which fault a step raises, for each of the five (R170, R172 to R174; the order of the checks is the spec's
decision D27): no step raises LoadError. -/
def Obligations.StepFaultConditions : Prop :=
  ∀ s t : State, s.schedule = [] → s.fault = none → step s = .next t →
    (t.fault = some .stackOverflow ↔ s.sp.val = 16 ∧ ∃ nnn, s.nextInstr = some (.call nnn)) ∧
    (t.fault = some .stackUnderflow ↔ s.sp.val = 0 ∧ s.nextInstr = some .ret) ∧
    (t.fault = some .invalidOpcode ↔
      (s.pc.toNat + 1 ≤ 0xFFF ∧ s.nextInstr = none) ∨
      ∃ x, (s.nextInstr = some (.skp x) ∨ s.nextInstr = some (.sknp x)) ∧ (s.getV x).toNat > 0xF) ∧
    (t.fault = some .memoryBounds ↔
      s.pc.toNat + 1 > 0xFFF ∨
      ∃ i, s.nextInstr = some i ∧ (dataRange i s).2 > 0 ∧ (dataRange i s).1 + (dataRange i s).2 - 1 > 0xFFF) ∧
    t.fault ≠ some .loadError

/-- No state and no instruction stops the model: every execution and every move answers a next state (R85, R175, R176:
every fault is a state), and none changes an open parameter of the machine (R7). That a fault is a next state with its
latch set is how R175 is read here (log entry 8); that the parameters stand in the state is the model's choice (log
entry 22). -/
def Obligations.EveryStepAnswersNext : Prop :=
  (∀ (i : Instr) (s : State), ∃ t, exec i s = .next t ∧ t.settings = s.settings) ∧
  ∀ s : State, ∃ t, step s = .next t ∧ t.settings = s.settings

/-- THE FRAME OF EVERY INSTRUCTION (R87 with R27's table): when an instruction answers a next state, every piece of
state outside its W entries is unchanged, the machine's settings always, and every byte of memory outside the range it stores to, which is the range
at I that the meanings use, reads as before. -/
def Obligations.InstructionWritesOnlyItsParts : Prop :=
  ∀ (i : Instr) (s t : State), exec i s = .next t →
    SameExcept (writes i) s t ∧
    MemSameOutside (dataRange i s).1 (if stores i = true then (dataRange i s).2 else 0) s t

/-- What the interpreter never writes (R87, R26): a step leaves keys and prev alone, changes a timer only by SDT or
SST, and changes a byte of memory only by a storing instruction, within its range at I. -/
def Obligations.StepLeavesOtherAgentsState : Prop :=
  ∀ s t : State, s.schedule = [] → step s = .next t →
    t.keys = s.keys ∧ t.prev = s.prev ∧
    (t.dt ≠ s.dt → ∃ x, s.nextInstr = some (.sdt x)) ∧
    (t.st ≠ s.st → ∃ x, s.nextInstr = some (.sst x)) ∧
    ∀ a, t.readByte a ≠ s.readByte a →
      ∃ i, s.nextInstr = some i ∧ stores i = true ∧ ¬ outside (dataRange i s).1 (dataRange i s).2 a

/-! ### Control transfer (41_control_flow.md) -/

/-- R91: JP writes its literal, zero-extended, to pc and nothing else; a jump to 0xFFF makes the next fetch fault; a
jump to itself repeats for ever and changes nothing. -/
def Obligations.JumpSetsProgramCounter : Prop :=
  (∀ w : Word, fieldF w = 0x1 → decodeWord w = .ok (.jp (fieldNNN w))) ∧
  (∀ (nnn : Lit12) (s : State), ∃ t, exec (.jp nnn) s = .next t ∧
    t.pc.toNat = nnn.toNat ∧ SameExcept [.pc] s t) ∧
  (∀ s t : State, exec (.jp 0xFFF) s = .next t → t.schedule = [] → t.fault = none →
    ∃ u, step t = .next u ∧ u.fault = some .memoryBounds) ∧
  ∀ (nnn : Lit12) (s : State), s.schedule = [] → s.fault = none → s.nextInstr = some (.jp nnn) →
    nnn.toNat = s.pc.toNat → step s = .next s

/-- R92: CALL pushes the advanced pc and jumps; with sixteen entries in use it raises StackOverflow and writes nothing
else. -/
def Obligations.CallPushesReturnAddress : Prop :=
  (∀ w : Word, fieldF w = 0x2 → decodeWord w = .ok (.call (fieldNNN w))) ∧
  ∀ (nnn : Lit12) (s : State),
    (s.sp.val < 16 → ∃ t, exec (.call nnn) s = .next t ∧
      t.pc.toNat = nnn.toNat ∧ t.sp.val = s.sp.val + 1 ∧ t.stackEntry s.sp.val = s.pc ∧
      (∀ k, k ≠ s.sp.val → t.stackEntry k = s.stackEntry k) ∧ SameExcept [.pc, .stack, .sp] s t) ∧
    (s.sp.val = 16 → ∃ t, exec (.call nnn) s = .next t ∧
      t.fault = some .stackOverflow ∧ SameExcept [.fault] s t)

/-- RET pops the newest entry into pc; on an empty stack it raises StackUnderflow and writes nothing else (R90). That the
popped entry stays in the stack as a stale value is the model's choice among the three that R15 and U16 allow (log
entry 15). -/
def Obligations.ReturnPopsStack : Prop :=
  (∀ w : Word, decodeWord w = .ok .ret ↔ w = 0x00EE) ∧
  ∀ s : State,
    (s.sp.val > 0 → ∃ t, exec .ret s = .next t ∧
      t.pc = s.stackEntry (s.sp.val - 1) ∧ t.sp.val = s.sp.val - 1 ∧ SameExcept [.pc, .sp] s t) ∧
    (s.sp.val = 0 → ∃ t, exec .ret s = .next t ∧ t.fault = some .stackUnderflow ∧ SameExcept [.fault] s t)

/-- A return resumes after its call: from any later state with the stack as the call left it, RET goes to the address
after the call, and the depth and the entries below are those before it (R90, R92). -/
def Obligations.ReturnResumesAfterCall : Prop :=
  ∀ (nnn : Lit12) (s : State), s.sp.val < 16 →
    ∃ t, exec (.call nnn) s = .next t ∧
      ∀ u : State, u.stack = t.stack → u.sp = t.sp →
        ∃ v, exec .ret u = .next v ∧ v.pc = s.pc ∧ v.sp = s.sp ∧
          ∀ k, k < s.sp.val → v.stackEntry k = s.stackEntry k

/-- JP0 jumps to V0 + NNN, always V0, the sum not reduced to 12 bits (R93; the width is the spec's decision D7). -/
def Obligations.JumpOffsetAddsV0 : Prop :=
  ∀ (nnn : Lit12) (s : State), ∃ t, exec (.jp0 nnn) s = .next t ∧
    t.pc.toNat = (s.getV 0).toNat + nnn.toNat ∧ SameExcept [.pc] s t

/-! ### Conditional skips (42_skips.md) -/

/-- R100, R101: SEI skips exactly when VX = NN, SNEI exactly when VX ≠ NN; a skip adds 2 to the advanced pc; nothing
else is written. -/
def Obligations.ImmediateSkips : Prop :=
  (∀ w : Word, fieldF w = 0x3 → decodeWord w = .ok (.sei (fieldX w) (fieldNN w))) ∧
  (∀ w : Word, fieldF w = 0x4 → decodeWord w = .ok (.snei (fieldX w) (fieldNN w))) ∧
  ∀ (x : Reg) (nn : Byte) (s : State),
    (∃ t, exec (.sei x nn) s = .next t ∧
      t.pc = (if s.getV x = nn then s.pc + 2 else s.pc) ∧ SameExcept [.pc] s t) ∧
    (∃ t, exec (.snei x nn) s = .next t ∧
      t.pc = (if s.getV x ≠ nn then s.pc + 2 else s.pc) ∧ SameExcept [.pc] s t)

/-- R102, R103: SE skips exactly when VX = VY, SNE exactly when VX ≠ VY; a step that fetches such a word with N ≠ 0
raises InvalidOpcode, whatever the registers hold. -/
def Obligations.RegisterSkips : Prop :=
  (∀ w : Word, fieldF w = 0x5 → fieldN w = 0 → decodeWord w = .ok (.se (fieldX w) (fieldY w))) ∧
  (∀ w : Word, fieldF w = 0x9 → fieldN w = 0 → decodeWord w = .ok (.sne (fieldX w) (fieldY w))) ∧
  (∀ (w : Word) (s : State), fieldF w = 0x5 ∨ fieldF w = 0x9 → fieldN w ≠ 0 →
    s.schedule = [] → s.fault = none → s.fetch = some (wordBytes w) →
    ∃ t, step s = .next t ∧ t.fault = some .invalidOpcode) ∧
  ∀ (x y : Reg) (s : State),
    (∃ t, exec (.se x y) s = .next t ∧
      t.pc = (if s.getV x = s.getV y then s.pc + 2 else s.pc) ∧ SameExcept [.pc] s t) ∧
    (∃ t, exec (.sne x y) s = .next t ∧
      t.pc = (if s.getV x ≠ s.getV y then s.pc + 2 else s.pc) ∧ SameExcept [.pc] s t)

/-! ### Registers and arithmetic (43_alu.md) -/

/-- R111, R112, R113: LDI writes its literal, ADDI adds it modulo 256, MOV copies VY; none writes any flag or anything
but VX. -/
def Obligations.LoadMoveAndAddImmediate : Prop :=
  (∀ w : Word, fieldF w = 0x6 → decodeWord w = .ok (.ldi (fieldX w) (fieldNN w))) ∧
  (∀ w : Word, fieldF w = 0x7 → decodeWord w = .ok (.addi (fieldX w) (fieldNN w))) ∧
  (∀ w : Word, w &&& 0xF00F = 0x8000 → decodeWord w = .ok (.mov (fieldX w) (fieldY w))) ∧
  ∀ (x y : Reg) (nn : Byte) (s : State),
    (∃ t, exec (.ldi x nn) s = .next t ∧ t.getV x = nn ∧ SameExcept [.V x] s t) ∧
    (∃ t, exec (.addi x nn) s = .next t ∧
      (t.getV x).toNat = ((s.getV x).toNat + nn.toNat) % 256 ∧ SameExcept [.V x] s t) ∧
    (∃ t, exec (.mov x y) s = .next t ∧ t.getV x = s.getV y ∧ SameExcept [.V x] s t)

/-- R114, R115, R116: OR, AND, XOR write the result and then zero VF; where VX is VF it ends 0. -/
def Obligations.LogicResultsZeroFlag : Prop :=
  (∀ w : Word, w &&& 0xF00F = 0x8001 → decodeWord w = .ok (.or (fieldX w) (fieldY w))) ∧
  (∀ w : Word, w &&& 0xF00F = 0x8002 → decodeWord w = .ok (.and (fieldX w) (fieldY w))) ∧
  (∀ w : Word, w &&& 0xF00F = 0x8003 → decodeWord w = .ok (.xor (fieldX w) (fieldY w))) ∧
  ∀ (x y : Reg) (s : State),
    (∃ t, exec (.or x y) s = .next t ∧ (x ≠ VF → t.getV x = s.getV x ||| s.getV y) ∧
      t.getV VF = 0 ∧ SameExcept [.V x, .V VF] s t) ∧
    (∃ t, exec (.and x y) s = .next t ∧ (x ≠ VF → t.getV x = s.getV x &&& s.getV y) ∧
      t.getV VF = 0 ∧ SameExcept [.V x, .V VF] s t) ∧
    (∃ t, exec (.xor x y) s = .next t ∧ (x ≠ VF → t.getV x = s.getV x ^^^ s.getV y) ∧
      t.getV VF = 0 ∧ SameExcept [.V x, .V VF] s t)

/-- R117: ADD writes the sum modulo 256 and then the carry to VF, both from the operands before any write; where VX is
VF it ends as the carry. -/
def Obligations.AddSetsCarry : Prop :=
  (∀ w : Word, w &&& 0xF00F = 0x8004 → decodeWord w = .ok (.add (fieldX w) (fieldY w))) ∧
  ∀ (x y : Reg) (s : State), ∃ t, exec (.add x y) s = .next t ∧
    (x ≠ VF → (t.getV x).toNat = ((s.getV x).toNat + (s.getV y).toNat) % 256) ∧
    t.getV VF = (if (s.getV x).toNat + (s.getV y).toNat > 255 then 1 else 0) ∧ SameExcept [.V x, .V VF] s t

/-- SUB and SUBN where neither operand is VF: the wrapped difference, and VF = 1 exactly when the minuend is STRICTLY
greater (R118, R120). The forms with VF as an operand are in FlagRegisterAsOperand. -/
def Obligations.SubtractSetsStrictFlag : Prop :=
  ∀ (x y : Reg) (s : State), x ≠ VF → y ≠ VF →
    (∃ t, exec (.sub x y) s = .next t ∧
      ((t.getV x).toNat : Int) = ((s.getV x).toNat - (s.getV y).toNat : Int) % 256 ∧
      t.getV VF = (if (s.getV x).toNat > (s.getV y).toNat then 1 else 0) ∧ SameExcept [.V x, .V VF] s t) ∧
    (∃ t, exec (.subn x y) s = .next t ∧
      ((t.getV x).toNat : Int) = ((s.getV y).toNat - (s.getV x).toNat : Int) % 256 ∧
      t.getV VF = (if (s.getV y).toNat > (s.getV x).toNat then 1 else 0) ∧ SameExcept [.V x, .V VF] s t)

/-- SHR and SHL where VX is not VF, for every Y: one position, VF the bit shifted out, VY not read (R119, R121, R66).
The forms with VX = VF are in FlagRegisterAsOperand. -/
def Obligations.ShiftSetsLostBit : Prop :=
  ∀ (x y : Reg) (s : State), x ≠ VF →
    (∃ t, exec (.shr x y) s = .next t ∧ (t.getV x).toNat = (s.getV x).toNat / 2 ∧
      (t.getV VF).toNat = (s.getV x).toNat % 2 ∧ SameExcept [.V x, .V VF] s t) ∧
    (∃ t, exec (.shl x y) s = .next t ∧ (t.getV x).toNat = (s.getV x).toNat * 2 % 256 ∧
      (t.getV VF).toNat = (s.getV x).toNat / 128 ∧ SameExcept [.V x, .V VF] s t)

/-- R124's rows for SUB, SUBN, SHR, SHL with VF as an operand. They rest on the spec's decision D2 (R110: each
statement reads the registers as the statement before it left them). -/
def Obligations.FlagRegisterAsOperand : Prop :=
  ∀ (x y : Reg) (s : State), x ≠ VF → y ≠ VF →
    (∃ t, exec (.sub VF y) s = .next t ∧ SameExcept [.V VF] s t ∧
      t.getV VF = (if (s.getV VF).toNat > (s.getV y).toNat then 1 else 0) - s.getV y) ∧
    (∃ t, exec (.sub x VF) s = .next t ∧ SameExcept [.V x, .V VF] s t ∧
      t.getV VF = (if (s.getV x).toNat > (s.getV VF).toNat then 1 else 0) ∧
      t.getV x = s.getV x - (if (s.getV x).toNat > (s.getV VF).toNat then 1 else 0)) ∧
    (∃ t, exec (.sub VF VF) s = .next t ∧ SameExcept [.V VF] s t ∧ t.getV VF = 0) ∧
    (∃ t, exec (.subn VF y) s = .next t ∧ SameExcept [.V VF] s t ∧
      t.getV VF = s.getV y - (if (s.getV y).toNat > (s.getV VF).toNat then 1 else 0)) ∧
    (∃ t, exec (.subn x VF) s = .next t ∧ SameExcept [.V x, .V VF] s t ∧
      t.getV VF = (if (s.getV VF).toNat > (s.getV x).toNat then 1 else 0) ∧
      t.getV x = (if (s.getV VF).toNat > (s.getV x).toNat then 1 else 0) - s.getV x) ∧
    (∃ t, exec (.subn VF VF) s = .next t ∧ SameExcept [.V VF] s t ∧ t.getV VF = 0) ∧
    ∀ z : Reg,
      (∃ t, exec (.shr VF z) s = .next t ∧ SameExcept [.V VF] s t ∧ t.getV VF = 0) ∧
      (∃ t, exec (.shl VF z) s = .next t ∧ SameExcept [.V VF] s t ∧
        (t.getV VF).toNat = 2 * ((s.getV VF).toNat / 128))

/-- RND writes the drawn byte ANDed with NN: no bit outside NN is set, whatever the free byte is, and the stream moves
on (R122, R22). The byte is the free value of log entry 1; the statement holds for every value of it. -/
def Obligations.RandomByteIsMasked : Prop :=
  ∀ (x : Reg) (nn : Byte) (s : State), ∃ t, exec (.rnd x nn) s = .next t ∧
    t.getV x = Config.randomByte s.draws &&& nn ∧ t.getV x &&& ~~~nn = 0 ∧
    t.draws = s.draws + 1 ∧ SameExcept [.V x, .draws] s t

/-! ### Index register and memory (44_index_memory.md, 20_memory.md) -/

/-- R130: LDA writes its literal, zero-extended, to I and nothing else. -/
def Obligations.LoadIndexSetsI : Prop :=
  (∀ w : Word, fieldF w = 0xA → decodeWord w = .ok (.lda (fieldNNN w))) ∧
  ∀ (nnn : Lit12) (s : State), ∃ t, exec (.lda nnn) s = .next t ∧
    t.I.toNat = nnn.toNat ∧ SameExcept [.I] s t

/-- R132: FONT writes the address of the glyph of VX's low nibble, within [0x050, 0x09B], whatever memory holds. -/
def Obligations.FontAddressOfLowNibble : Prop :=
  (∀ w : Word, w &&& 0xF0FF = 0xF029 → decodeWord w = .ok (.font (fieldX w))) ∧
  ∀ (x : Reg) (s : State), ∃ t, exec (.font x) s = .next t ∧
    t.I.toNat = 0x050 + 5 * ((s.getV x).toNat % 16) ∧ 0x050 ≤ t.I.toNat ∧ t.I.toNat ≤ 0x09B ∧
    SameExcept [.I] s t

/-- ADDA keeps all 16 bits of the sum, and VF becomes 1 when the true sum exceeds 0x0FFF, also where VX is VF; when it does
not, VF becomes 0 on a machine whose FX1E_ELSE is zero and stays on one whose is unchanged (R131, R7). The 16 bits are
the spec's decision D7, the default zero its decision D5 (log entries 11, 5). -/
def Obligations.AddIndexReportsOverflow : Prop :=
  ∀ (x : Reg) (s : State), ∃ t, exec (.adda x) s = .next t ∧
    t.I.toNat = (s.I.toNat + (s.getV x).toNat) % 65536 ∧
    (s.I.toNat + (s.getV x).toNat > 0x0FFF → t.getV VF = 1) ∧
    (s.I.toNat + (s.getV x).toNat ≤ 0x0FFF →
      (s.settings.fx1eElse = .zero → t.getV VF = 0) ∧ (s.settings.fx1eElse = .unchanged → t.getV VF = s.getV VF)) ∧
    SameExcept [.I, .V VF] s t

/-- BCD stores hundreds, tens and ones of VX at I, I+1, I+2, each a digit; every other byte reads as before; a range
that leaves memory raises MemoryBounds and stores nothing (R133; all or nothing is the spec's decision D8). -/
def Obligations.BcdStoresDecimalDigits : Prop :=
  ∀ (x : Reg) (s : State),
    (s.I.toNat + 2 ≤ 0xFFF → ∃ t, exec (.bcd x) s = .next t ∧
      (t.readByte s.I.toNat).toNat * 100 + (t.readByte (s.I.toNat + 1)).toNat * 10 +
        (t.readByte (s.I.toNat + 2)).toNat = (s.getV x).toNat ∧
      (t.readByte s.I.toNat).toNat ≤ 2 ∧ (t.readByte (s.I.toNat + 1)).toNat ≤ 9 ∧
      (t.readByte (s.I.toNat + 2)).toNat ≤ 9 ∧
      MemSameOutside (dataRange (.bcd x) s).1 3 s t ∧ SameExcept [.mem] s t) ∧
    (s.I.toNat + 2 > 0xFFF → ∃ t, exec (.bcd x) s = .next t ∧
      t.fault = some .memoryBounds ∧ SameExcept [.fault] s t)

/-- STM stores V0..VX at I..I+X and leaves every other byte, every register and I alone; a range that leaves memory
raises MemoryBounds and stores nothing (R134; the unchanged I is the spec's decision D6). -/
def Obligations.StoreRegistersAtI : Prop :=
  ∀ (x : Reg) (s : State),
    (s.I.toNat + x.val ≤ 0xFFF → ∃ t, exec (.stm x) s = .next t ∧
      (∀ k : Reg, k ≤ x → t.readByte (s.I.toNat + k.val) = s.getV k) ∧
      MemSameOutside (dataRange (.stm x) s).1 (x.val + 1) s t ∧ SameExcept [.mem] s t) ∧
    (s.I.toNat + x.val > 0xFFF → ∃ t, exec (.stm x) s = .next t ∧
      t.fault = some .memoryBounds ∧ SameExcept [.fault] s t)

/-- LDM loads V0..VX from I..I+X and leaves the registers above, I and memory alone; a range that leaves memory raises
MemoryBounds and loads nothing (R135; the unchanged I is the spec's decision D6). -/
def Obligations.LoadRegistersFromI : Prop :=
  ∀ (x : Reg) (s : State),
    (s.I.toNat + x.val ≤ 0xFFF → ∃ t, exec (.ldm x) s = .next t ∧
      (∀ k : Reg, k ≤ x → t.getV k = s.readByte (s.I.toNat + k.val)) ∧
      (∀ k : Reg, ¬ k ≤ x → t.getV k = s.getV k) ∧ SameExcept (partsUpTo x) s t) ∧
    (s.I.toNat + x.val > 0xFFF → ∃ t, exec (.ldm x) s = .next t ∧
      t.fault = some .memoryBounds ∧ SameExcept [.fault] s t)

/-- What STM stored is what later steps find (R134, R135, R53): from any state whose bytes and I are as STM left them,
LDM brings the registers back; and a fetch at the address stored to sees V0, V1, the first as the opcode's high byte
(R49, R55; fetch coherence is the spec's decision D36). -/
def Obligations.StoredRegistersAreReadBack : Prop :=
  ∀ (x : Reg) (s : State), s.I.toNat + x.val ≤ 0xFFF →
    ∃ t, exec (.stm x) s = .next t ∧
      (∀ u : State, (∀ a, u.readByte a = t.readByte a) → u.I = t.I →
        ∃ v, exec (.ldm x) u = .next v ∧ ∀ k : Reg, k ≤ x → v.getV k = s.getV k) ∧
      (1 ≤ x.val → ∀ u : State, (∀ a, u.readByte a = t.readByte a) → u.pc = s.I →
        u.fetch = some [s.getV 0, s.getV 1] ∧ ∀ i, decodeWord (s.getV 0 ++ s.getV 1) = .ok i → u.nextInstr = some i)

/-- MemWrite and MemRead (R47, R48, R53): a range inside memory is written whole and reads back byte for byte, every
other byte reads as before, and the canonical form is kept; a range that leaves memory is refused whole by both. -/
def Obligations.ReadReturnsLatestWrite : Prop :=
  ∀ (s : State) (addr : Nat) (bytes : List Byte), bytes ≠ [] →
    (addr + bytes.length - 1 ≤ 0xFFF → ∃ t, s.memWrite addr bytes = some t ∧
      t.memRead addr bytes.length = some bytes ∧ MemSameOutside addr bytes.length s t ∧
      SameExcept [.mem] s t ∧ (s.mem.wf s.font = true → t.mem.wf t.font = true)) ∧
    (addr + bytes.length - 1 > 0xFFF →
      s.memWrite addr bytes = none ∧ s.memRead addr bytes.length = none)

/-- Equal memories are equal data: two memories in canonical form that read alike at every address, in a machine with
any font, are one list (the model's representation of R23). -/
def Obligations.CanonicalMemoryIsUnique : Prop :=
  ∀ (font : Config.Font) (m m' : Memory), m.wf font = true → m'.wf font = true →
    (∀ a, m.get font a = m'.get font a) → m = m'

/-! ### Display (45_display.md) -/

/-- CLS turns every pixel off and changes nothing else: not VF, not prev; `hasChanged` is then true exactly where prev
has a lit pixel (R142, R146). -/
def Obligations.ClearScreenBlanksEveryPixel : Prop :=
  ∀ s : State, ∃ t, exec .cls s = .next t ∧
    (∀ row col, t.fb.pixel row col = false) ∧ SameExcept [.fb] s t ∧
    (t.hasChanged = true ↔ ∃ row col, s.prev.pixel row col = true)

/-- DRW, pixel by pixel (R140, R141): when its N bytes lie in memory (or N is 0), every pixel of the screen is XORed with the
sprite's pixel there, under both settings of DRAW_X_POLICY, VF says whether a lit pixel met a set sprite pixel, and
nothing else changes; otherwise it raises MemoryBounds and draws nothing. Bit order, the right edge's default and the
whole-range check are the spec's decisions D3, D4, D8 (log entries 14, 4, 12). -/
def Obligations.DrawXorsSpriteOntoScreen : Prop :=
  ∀ (x y : Reg) (n : Rows) (s : State),
    (n.val = 0 ∨ s.I.toNat + n.val - 1 ≤ 0xFFF → ∃ t, exec (.drw x y n) s = .next t ∧
      (∀ row col, row < 32 → col < 64 →
        t.fb.pixel row col = (s.fb.pixel row col ^^ spriteBit s x y n row col)) ∧
      (collides s x y n → t.getV VF = 1) ∧ (¬ collides s x y n → t.getV VF = 0) ∧
      SameExcept [.V VF, .fb] s t) ∧
    (n.val ≠ 0 ∧ s.I.toNat + n.val - 1 > 0xFFF → ∃ t, exec (.drw x y n) s = .next t ∧
      t.fault = some .memoryBounds ∧ SameExcept [.fault] s t)

/-- XOR law (R144): drawing the same rows twice at the same place restores the screen, under both settings of
DRAW_X_POLICY; and for DRW at an unchanged position from a blank footprint, the first draw reports no collision and the
second reports one exactly when the sprite has a pixel on the screen. -/
def Obligations.DrawingTwiceRestoresScreen : Prop :=
  (∀ (policy : Config.DrawXPolicy) (x0 y0 : Nat) (rows : List Byte) (f : Screen) (hit hit' : Bool), x0 < 64 →
    (drawRows policy x0 y0 rows ((drawRows policy x0 y0 rows (f, hit)).1, hit')).1 = f) ∧
  ∀ (x y : Reg) (n : Rows) (s t : State),
    n.val = 0 ∨ s.I.toNat + n.val - 1 ≤ 0xFFF → exec (.drw x y n) s = .next t →
    startColumn (t.getV x) = startColumn (s.getV x) → startRow (t.getV y) = startRow (s.getV y) →
    ∃ u, exec (.drw x y n) t = .next u ∧ u.fb = s.fb ∧
      (¬ collides s x y n → t.getV VF = 0 ∧
        ((∃ row col, row < 32 ∧ col < 64 ∧ spriteBit s x y n row col = true) → u.getV VF = 1) ∧
        ((∀ row col, row < 32 → col < 64 → spriteBit s x y n row col = false) → u.getV VF = 0))

/-- The word form of one sprite row (R143): under clipping, the row's word is XORed with the byte shifted into place,
and the hit is whether the word and the pattern share a bit. The packing is the spec's decision D17. -/
def Obligations.SpriteRowIsWordXor : Prop :=
  ∀ (x0 y : Nat) (byte : Byte) (f : Screen) (hit : Bool), x0 < 64 → (hy : y < 32) →
    drawRow .clip x0 y byte (f, hit) =
      (f.set y (f[y] ^^^ ((byte.setWidth 64 <<< 56) >>> x0)),
       hit || decide (f[y] &&& ((byte.setWidth 64 <<< 56) >>> x0) ≠ 0))

/-! ### Keys (46_keypad.md) -/

/-- SKP skips exactly when the key VX names is down, SKNP exactly when it is not; with VX > 0xF both raise
InvalidOpcode and write nothing else (R152, R153). -/
def Obligations.KeySkipsTestNamedKey : Prop :=
  ∀ (x : Reg) (s : State),
    ((s.getV x).toNat ≤ 0xF →
      (∃ t, exec (.skp x) s = .next t ∧
        t.pc = (if s.keys.getLsbD (s.getV x).toNat = true then s.pc + 2 else s.pc) ∧ SameExcept [.pc] s t) ∧
      (∃ t, exec (.sknp x) s = .next t ∧
        t.pc = (if s.keys.getLsbD (s.getV x).toNat = false then s.pc + 2 else s.pc) ∧ SameExcept [.pc] s t)) ∧
    ((s.getV x).toNat > 0xF →
      (∃ t, exec (.skp x) s = .next t ∧ t.fault = some .invalidOpcode ∧ SameExcept [.fault] s t) ∧
      (∃ t, exec (.sknp x) s = .next t ∧ t.fault = some .invalidOpcode ∧ SameExcept [.fault] s t))

/-- WKEY with a key down writes the lowest such key's index to VX; with none it goes back to itself, so that the whole
step changes nothing (R154, R85; level-sensitivity is the spec's decision D31). -/
def Obligations.WaitKeyTakesLowestKey : Prop :=
  (∀ (x : Reg) (s : State), s.keys ≠ 0 → ∃ t, exec (.wkey x) s = .next t ∧
    s.keys.getLsbD (t.getV x).toNat = true ∧ (∀ k, k < (t.getV x).toNat → s.keys.getLsbD k = false) ∧
    SameExcept [.V x] s t) ∧
  (∀ (x : Reg) (s : State), s.keys = 0 → ∃ t, exec (.wkey x) s = .next t ∧
    t.pc = s.pc - 2 ∧ SameExcept [.pc] s t) ∧
  ∀ (x : Reg) (s : State), s.schedule = [] → s.nextInstr = some (.wkey x) → s.keys = 0 → step s = .next s

/-- KeyDown and KeyUp set and clear exactly their own bit (R150, R151). That they do so on a faulted block as well is the
model's choice (log entry 7; R176 and the spec's decision D25 let a model freeze them there). -/
def Obligations.KeyEventsChangeOneBit : Prop :=
  ∀ (k : Key) (s : State),
    (∃ t, s.deliver (.keyDown k) = .next t ∧ SameExcept [.keys] s t ∧
      ∀ j : Key, t.keys.getLsbD j.val = if j = k then true else s.keys.getLsbD j.val) ∧
    (∃ t, s.deliver (.keyUp k) = .next t ∧ SameExcept [.keys] s t ∧
      ∀ j : Key, t.keys.getLsbD j.val = if j = k then false else s.keys.getLsbD j.val)

/-! ### Timers and tone (47_timers.md) -/

/-- R160, R161: GDT copies the delay timer to VX, SDT copies VX to the delay timer; nothing else is written. -/
def Obligations.DelayTimerMoves : Prop :=
  (∀ w : Word, w &&& 0xF0FF = 0xF007 → decodeWord w = .ok (.gdt (fieldX w))) ∧
  (∀ w : Word, w &&& 0xF0FF = 0xF015 → decodeWord w = .ok (.sdt (fieldX w))) ∧
  ∀ (x : Reg) (s : State),
    (∃ t, exec (.gdt x) s = .next t ∧ t.getV x = s.dt ∧ SameExcept [.V x] s t) ∧
    (∃ t, exec (.sdt x) s = .next t ∧ t.dt = s.getV x ∧ SameExcept [.dt] s t)

/-- SST copies VX to the sound timer and sends exactly the edge of the tone it makes (R162, R165, R166; the edge made
by writing 0 is the spec's decision D20). -/
def Obligations.SoundTimerWriteSendsEdge : Prop :=
  ∀ (x : Reg) (s : State), ∃ t, exec (.sst x) s = .next t ∧ t.st = s.getV x ∧ SameExcept [.st] s t ∧
    (toneSignal .step s t = some .start ↔ s.st = 0 ∧ s.getV x ≠ 0) ∧
    (toneSignal .step s t = some .stop ↔ s.st ≠ 0 ∧ s.getV x = 0)

/-- A tick takes each nonzero counter down by one, leaves a zero counter at zero, writes nothing else, and sends the one
stop signal exactly when the sound timer goes from 1 to 0 (R163). That it does so on a faulted block as well is the
model's choice (log entry 7; R176 and the spec's decision D25 let a model freeze it there). -/
def Obligations.TickDecrementsNonzeroTimers : Prop :=
  ∀ s : State, ∃ t, s.deliver .tick = .next t ∧
    t.dt.toNat = s.dt.toNat - 1 ∧ t.st.toNat = s.st.toNat - 1 ∧ SameExcept [.dt, .st] s t ∧
    toneSignal .tick s t = if s.st = 1 then some .stop else none

/-- After n ticks and nothing else, each timer holds max(v − n, 0), and the run sends exactly one stop signal where
the sound timer ran out in it, none elsewhere (R51, R163, R167). From a faulted state it holds by the model's choice (log
entry 7; R176 and the spec's decision D25 let a model freeze the timers there). -/
def Obligations.TimersAfterManyTicks : Prop :=
  ∀ (n : Nat) (s : State), ∃ t, runEvents (List.replicate n .tick) s = .next t ∧
    t.dt.toNat = s.dt.toNat - n ∧ t.st.toNat = s.st.toNat - n ∧ SameExcept [.dt, .st] s t ∧
    signals (List.replicate n .tick) s = if s.st ≠ 0 ∧ s.st.toNat ≤ n then [.stop] else []

/-- No tick is lost or applied twice (R51): over any schedule without a load in which no step runs SDT, the delay timer
ends at max(v − t, 0), where t is the number of ticks in it, whatever else happens. That ticks after a fault count too is
the model's choice (log entry 7; R176 and the spec's decision D25 let a model freeze the timers there). -/
def Obligations.TicksAreNeverLost : Prop :=
  ∀ (es : List Event) (s t : State),
    (∀ bytes, Event.load bytes ∉ es) →
    (∀ before after u, es = before ++ Event.step :: after → runEvents before s = .next u →
      ∀ x, u.nextInstr ≠ some (.sdt x)) →
    runEvents es s = .next t →
    t.dt.toNat = s.dt.toNat - es.count .tick

/-- Which events send which signal (R166). Only a step of SST that writes a nonzero value over a zero sound timer sends a
start. A stop is sent exactly by a tick that takes the sound timer from 1 to 0, by a step of SST that writes 0 over a
nonzero one, and by a successful load that ends a tone; of a stop by a tick on a faulted block nothing is said. A failed
load sends nothing. Over any schedule in which no load fails the signals alternate, beginning with a start where the
tone is off. The stop by SST is the spec's decision D20; the stop by a load and the silence of a failed load are read
from R166 and R203 by the model (log entry 18); that the tone of a faulted block follows its ticks, so that a schedule
which goes on after a fault alternates, is the model's choice (log entry 7). -/
def Obligations.ToneSignalsHaveOnlyTheirCauses : Prop :=
  (∀ (e : Event) (s t : State), s.deliver e = .next t →
    (toneSignal e s t = some .start ↔
      e = .step ∧ s.fault = none ∧ s.st = 0 ∧ ∃ x, s.nextInstr = some (.sst x) ∧ s.getV x ≠ 0) ∧
    ((e = .tick → s.fault = none) →
      (toneSignal e s t = some .stop ↔
        (e = .tick ∧ s.st = 1) ∨
        (e = .step ∧ s.fault = none ∧ s.st ≠ 0 ∧ ∃ x, s.nextInstr = some (.sst x) ∧ s.getV x = 0) ∨
        (∃ bytes, e = .load bytes ∧ bytes.length ≤ 3584 ∧ s.st ≠ 0)))) ∧
  ∀ (es : List Event) (s : State), (∀ bytes, Event.load bytes ∈ es → bytes.length ≤ 3584) →
    alternate s.tone (signals es s) = true

/-- A program cannot tell when a tick comes but by the timers (R50, R51, R163): an instruction that is none of GDT,
SDT, SST and a tick give the same state in either order. That a tick acts on a faulted block too, one the step has
faulted included, is the model's choice (log entry 7; R176 and the spec's decision D25 let a model freeze the timers
there). -/
def Obligations.TickCommutesWithStep : Prop :=
  ∀ s t : State, s.interpret = .next t →
    (∀ x, s.nextInstr ≠ some (.gdt x) ∧ s.nextInstr ≠ some (.sdt x) ∧ s.nextInstr ≠ some (.sst x)) →
    s.tick.interpret = .next t.tick

/-- No program can observe prev or the sound timer (R18, R21, R147): a step of a state with another prev and another
sound timer gives the same next state with that prev, and with that sound timer unless the instruction is SST. -/
def Obligations.PrevAndSoundAreUnobservable : Prop :=
  ∀ (s t : State) (p : Screen) (v : Byte), s.interpret = .next t →
    State.interpret { s with prev := p } = .next { t with prev := p } ∧
    ((∀ x, s.nextInstr ≠ some (.sst x)) → State.interpret { s with st := v } = .next { t with st := v })

/-! ### Reset and load (70_reset_and_hazards.md, 10_state.md R29) -/

/-- The state after reset of a machine with any settings (R29; I, keys, fb and prev are the spec's decision D13): every
byte of memory but the font's is zero, and the font's are the 80 bytes of the parameter FONT (R44). State.reset is that
state at the defaults of R7: clip and zero are the spec's decisions D4 and D5 (log entries 4, 5), and the font is R44's
table, glyph by glyph, whose bytes are presumed (decision D14, log entry 6). -/
def Obligations.ResetValues : Prop :=
  (∀ (c : Config.Settings) (s : State), s = State.resetWith c →
    (∀ r : Reg, s.getV r = 0) ∧ s.I = 0 ∧ s.pc = 0x200 ∧ s.sp = 0 ∧ (∀ k, s.stackEntry k = 0) ∧ s.dt = 0 ∧ s.st = 0 ∧
    s.tone = false ∧ s.keys = 0 ∧ (∀ row col, s.fb.pixel row col = false) ∧
    (∀ row col, s.prev.pixel row col = false) ∧ s.hasChanged = false ∧ s.fault = none ∧ s.settings = c ∧
    (∀ j, (h : j < 80) → s.readByte (0x050 + j) = c.font[j]) ∧
    ∀ a, a < 0x050 ∨ 0x0A0 ≤ a → s.readByte a = 0) ∧
  State.reset = State.resetWith State.reset.settings ∧
  State.reset.settings.drawXPolicy = .clip ∧ State.reset.settings.fx1eElse = .zero ∧
  State.reset.settings.font.toList = (
    [0xF0, 0x90, 0x90, 0x90, 0xF0] ++ [0x20, 0x60, 0x20, 0x20, 0x70] ++
    [0xF0, 0x10, 0xF0, 0x80, 0xF0] ++ [0xF0, 0x10, 0xF0, 0x10, 0xF0] ++
    [0x90, 0x90, 0xF0, 0x10, 0x10] ++ [0xF0, 0x80, 0xF0, 0x10, 0xF0] ++
    [0xF0, 0x80, 0xF0, 0x90, 0xF0] ++ [0xF0, 0x10, 0x20, 0x40, 0x40] ++
    [0xF0, 0x90, 0xF0, 0x90, 0xF0] ++ [0xF0, 0x90, 0xF0, 0x10, 0xF0] ++
    [0xF0, 0x90, 0xF0, 0x90, 0x90] ++ [0xE0, 0x90, 0xE0, 0x90, 0xE0] ++
    [0xF0, 0x80, 0x80, 0x80, 0xF0] ++ [0xE0, 0x90, 0x90, 0x90, 0xE0] ++
    [0xF0, 0x80, 0xF0, 0x80, 0xF0] ++ [0xF0, 0x80, 0xF0, 0x80, 0x80] : List Byte)

/-- A load of at most 3584 bytes succeeds from every state, faulted or not (R200, R201, R202): the program lies at
0x200, the rest of memory is the reset image under the machine's font, and everything else is as after reset, the fault
latch clear. -/
def Obligations.LoadPlacesProgram : Prop :=
  ∀ (s : State) (bytes : List Byte), bytes.length ≤ 3584 →
    ∃ t, s.deliver (.load bytes) = .next t ∧
      (∀ k, (hk : k < bytes.length) → t.readByte (0x200 + k) = bytes[k]) ∧
      MemSameOutside 0x200 bytes.length (State.resetWith s.settings) t ∧
      SameExcept [.mem, .draws, .schedule] (State.resetWith s.settings) t ∧ t.fault = none ∧
      t.mem.wf t.font = true

/-- A load of more than 3584 bytes raises LoadError, reporting the length; the block is halted until a successful load
(R202, R203; the latch is the spec's decision D28). Nothing is said of the rest of the state: it is unspecified (log
entry 2). -/
def Obligations.OversizeLoadFails : Prop :=
  ∀ (s : State) (bytes : List Byte), bytes.length > 3584 →
    ∃ t, s.deliver (.load bytes) = .next t ∧ t.fault = some .loadError ∧ t.deliver .step = .next t ∧
      report (.load bytes) s t = some (.loadError, .length bytes.length)

/-! ### Invariants and runs -/

/-- The invariant of R30 holds after reset of a machine with any settings and after every successful load. -/
def Obligations.InvariantHoldsAfterLoad : Prop :=
  State.reset.Inv ∧ (∀ c : Config.Settings, (State.resetWith c).Inv) ∧
  ∀ (s : State) (bytes : List Byte), bytes.length ≤ 3584 → (s.loaded bytes).Inv

/-- THE INVARIANT OF R30 IS KEPT BY EVERY STEP, from every state that meets it, whatever event is pending: memory stays
in canonical form inside 0x000..0xFFF; and unless a load has failed, pc stays at most 0x10FE and every valid stack
entry within 0x0002..0x1000. -/
def Obligations.StepKeepsInvariant : Prop :=
  ∀ s t : State, s.Inv → step s = .next t → t.Inv

/-- prev: CommitFrame copies the screen into it and changes nothing else (R147), `hasChanged` compares the two pixel by
pixel (R146), and over every schedule in which no load fails prev holds what it held at the start, the blank screen, or
an earlier frame (R30). That CommitFrame acts on a faulted block as well is the model's choice (log entry 7; R176 and the
spec's decision D25 let a model freeze it there). -/
def Obligations.PrevIsAnEarlierFrame : Prop :=
  (∀ s : State, ∃ t, s.deliver .commitFrame = .next t ∧
    (∀ row col, t.prev.pixel row col = s.fb.pixel row col) ∧ t.hasChanged = false ∧ SameExcept [.prev] s t) ∧
  (∀ s : State, s.hasChanged = true ↔
    ∃ row col, row < 32 ∧ col < 64 ∧ s.fb.pixel row col ≠ s.prev.pixel row col) ∧
  ∀ (es : List Event) (s t : State),
    (∀ bytes, Event.load bytes ∈ es → bytes.length ≤ 3584) → runEvents es s = .next t →
    t.prev = s.prev ∨ t.prev = Screen.blank ∨
      ∃ before after u, es = before ++ after ∧ runEvents before s = .next u ∧ t.prev = u.fb

/-- The machine's own run of its schedule is the run of those events in order (R182): k moves from a state with k
pending events deliver exactly them. That the pending events are a field of State is the model's choice (log
entry 3). -/
def Obligations.MachineRunsItsSchedule : Prop :=
  ∀ (es : List Event) (s : State),
    Host.Core.run core es.length ({ s with schedule := es } : State) =
      runEvents es ({ s with schedule := [] } : State)

/-- A program that has reached its end stays there (R222): over any schedule without a load, pc, every register, the
stack, memory and the screen stay as they are; only the timers, keys and prev may change. -/
def Obligations.EndedProgramStaysAtEnd : Prop :=
  ∀ (es : List Event) (s : State), s.atEnd → (∀ bytes, Event.load bytes ∉ es) →
    ∃ t, runEvents es s = .next t ∧ t.atEnd ∧ SameExcept [.dt, .st, .keys, .prev] s t
end

