-- ==== Sys2Proof/Laws/Decode.lean ====
section
/-! SUPPORT. Laws.Decode: the fields of a word as numbers, the fields of the words the formats build, and the words the
fields rebuild. -/

namespace Sys2Proof

/-! ### Fields and formats as numbers -/

theorem toNat_append_add {n m : Nat} (x : BitVec n) (y : BitVec m) :
    (x ++ y).toNat = x.toNat * 2 ^ m + y.toNat := by
  rw [BitVec.toNat_append, ← Nat.shiftLeft_add_eq_or_of_lt y.isLt, Nat.shiftLeft_eq]

@[simp] theorem toNat_nibble (x : Fin 16) : (nibble x).toNat = x.val := rfl

@[simp] theorem toFin_nibble (x : Fin 16) : (nibble x).toFin = x := rfl

theorem toNat_wordAddr (f : BitVec 4) (nnn : Lit12) : (wordAddr f nnn).toNat = f.toNat * 4096 + nnn.toNat :=
  toNat_append_add f nnn

theorem toNat_wordRegImm (f : BitVec 4) (x : Reg) (nn : Byte) :
    (wordRegImm f x nn).toNat = f.toNat * 4096 + (x.val * 256 + nn.toNat) :=
  (toNat_append_add f (nibble x ++ nn)).trans (by rw [toNat_append_add]; rfl)

theorem toNat_wordRegReg (f : BitVec 4) (x y : Reg) (n : BitVec 4) :
    (wordRegReg f x y n).toNat = f.toNat * 4096 + (x.val * 256 + (y.val * 16 + n.toNat)) :=
  (toNat_append_add f (nibble x ++ (nibble y ++ n))).trans (by rw [toNat_append_add, toNat_append_add]; rfl)

theorem toNat_fieldF (w : Word) : (fieldF w).toNat = w.toNat / 4096 % 16 := by
  simp [fieldF, Nat.shiftRight_eq_div_pow]

theorem val_fieldX (w : Word) : (fieldX w).val = w.toNat / 256 % 16 := by
  simp [fieldX, Nat.shiftRight_eq_div_pow]

theorem val_fieldY (w : Word) : (fieldY w).val = w.toNat / 16 % 16 := by
  simp [fieldY, Nat.shiftRight_eq_div_pow]

theorem val_fieldN (w : Word) : (fieldN w).val = w.toNat % 16 := by
  simp [fieldN]

theorem toNat_fieldNN (w : Word) : (fieldNN w).toNat = w.toNat % 256 := by
  simp [fieldNN]

theorem toNat_fieldNNN (w : Word) : (fieldNNN w).toNat = w.toNat % 4096 := by
  simp [fieldNNN]

/-! ### The fields of a built word -/

@[simp] theorem fieldF_wordAddr (f : BitVec 4) (nnn : Lit12) : fieldF (wordAddr f nnn) = f := by
  apply BitVec.eq_of_toNat_eq; rw [toNat_fieldF, toNat_wordAddr]; omega

@[simp] theorem fieldNNN_wordAddr (f : BitVec 4) (nnn : Lit12) : fieldNNN (wordAddr f nnn) = nnn := by
  apply BitVec.eq_of_toNat_eq; rw [toNat_fieldNNN, toNat_wordAddr]; omega

@[simp] theorem fieldF_wordRegImm (f : BitVec 4) (x : Reg) (nn : Byte) : fieldF (wordRegImm f x nn) = f := by
  apply BitVec.eq_of_toNat_eq; rw [toNat_fieldF, toNat_wordRegImm]; omega

@[simp] theorem fieldX_wordRegImm (f : BitVec 4) (x : Reg) (nn : Byte) : fieldX (wordRegImm f x nn) = x := by
  apply Fin.ext; rw [val_fieldX, toNat_wordRegImm]; omega

@[simp] theorem fieldNN_wordRegImm (f : BitVec 4) (x : Reg) (nn : Byte) : fieldNN (wordRegImm f x nn) = nn := by
  apply BitVec.eq_of_toNat_eq; rw [toNat_fieldNN, toNat_wordRegImm]; omega

@[simp] theorem fieldF_wordRegReg (f : BitVec 4) (x y : Reg) (n : BitVec 4) : fieldF (wordRegReg f x y n) = f := by
  apply BitVec.eq_of_toNat_eq; rw [toNat_fieldF, toNat_wordRegReg]; omega

@[simp] theorem fieldX_wordRegReg (f : BitVec 4) (x y : Reg) (n : BitVec 4) : fieldX (wordRegReg f x y n) = x := by
  apply Fin.ext; rw [val_fieldX, toNat_wordRegReg]; omega

@[simp] theorem fieldY_wordRegReg (f : BitVec 4) (x y : Reg) (n : BitVec 4) : fieldY (wordRegReg f x y n) = y := by
  apply Fin.ext; rw [val_fieldY, toNat_wordRegReg]; omega

@[simp] theorem fieldN_wordRegReg (f : BitVec 4) (x y : Reg) (n : BitVec 4) : fieldN (wordRegReg f x y n) = n.toFin := by
  apply Fin.ext; rw [val_fieldN, toNat_wordRegReg]; change _ = n.toNat; omega

/-! ### A word from its fields -/

theorem wordAddr_fields (w : Word) : wordAddr (fieldF w) (fieldNNN w) = w := by
  apply BitVec.eq_of_toNat_eq; rw [toNat_wordAddr, toNat_fieldF, toNat_fieldNNN]; omega

theorem wordRegImm_fields (w : Word) : wordRegImm (fieldF w) (fieldX w) (fieldNN w) = w := by
  apply BitVec.eq_of_toNat_eq; rw [toNat_wordRegImm, toNat_fieldF, val_fieldX, toNat_fieldNN]; omega

theorem wordRegReg_fields (w : Word) : wordRegReg (fieldF w) (fieldX w) (fieldY w) (nibble (fieldN w)) = w := by
  apply BitVec.eq_of_toNat_eq
  rw [toNat_wordRegReg, toNat_fieldF, val_fieldX, val_fieldY, toNat_nibble, val_fieldN]; omega

theorem eq_wordAddr {w : Word} {f : BitVec 4} (h : fieldF w = f) : w = wordAddr f (fieldNNN w) := by
  rw [← h, wordAddr_fields]

theorem eq_wordRegImm {w : Word} {f : BitVec 4} (h : fieldF w = f) : w = wordRegImm f (fieldX w) (fieldNN w) := by
  rw [← h, wordRegImm_fields]

theorem eq_wordRegReg {w : Word} {f : BitVec 4} (h : fieldF w = f) :
    w = wordRegReg f (fieldX w) (fieldY w) (nibble (fieldN w)) := by
  rw [← h, wordRegReg_fields]

/-! ### Masks of the opcode map: what each leaves of a word -/

theorem and_append_of {n m : Nat} {x x' mx : BitVec n} {y y' my : BitVec m} (hx : x &&& mx = x') (hy : y &&& my = y') :
    (x ++ y) &&& (mx ++ my) = x' ++ y' := by rw [BitVec.and_append, hx, hy]

theorem wordAddr_and_F000 (f : BitVec 4) (nnn : Lit12) : wordAddr f nnn &&& 0xF000 = wordAddr f 0 :=
  and_append_of (mx := 0xF#4) (my := 0#12) BitVec.and_allOnes BitVec.and_zero

theorem wordRegImm_and_F0FF (f : BitVec 4) (x : Reg) (nn : Byte) : wordRegImm f x nn &&& 0xF0FF = wordRegImm f 0 nn :=
  and_append_of (mx := 0xF#4) (my := 0x0FF#12) BitVec.and_allOnes
    (and_append_of (mx := 0#4) (my := 0xFF#8) BitVec.and_zero BitVec.and_allOnes)

theorem wordRegReg_and_F00F (f : BitVec 4) (x y : Reg) (n : BitVec 4) :
    wordRegReg f x y n &&& 0xF00F = wordRegReg f 0 0 n :=
  and_append_of (mx := 0xF#4) (my := 0x00F#12) BitVec.and_allOnes
    (and_append_of (mx := 0#4) (my := 0x0F#8) BitVec.and_zero
      (and_append_of (mx := 0#4) (my := 0xF#4) BitVec.and_zero BitVec.and_allOnes))

/-- The mask of formats `ADDR`, `REG_IMM`, `REG_REG_IMM4` looks at the family alone. -/
theorem and_F000_eq {w : Word} {f : BitVec 4} : w &&& 0xF000 = wordAddr f 0 ↔ fieldF w = f := by
  constructor
  · intro h
    rw [← wordAddr_fields w, wordAddr_and_F000] at h
    simpa using congrArg fieldF h
  · intro h
    rw [eq_wordAddr h, wordAddr_and_F000]

/-- The mask of format `REG` looks at the family and `NN`. -/
theorem and_F0FF_eq {w : Word} {f : BitVec 4} {nn : Byte} :
    w &&& 0xF0FF = wordRegImm f 0 nn ↔ fieldF w = f ∧ fieldNN w = nn := by
  constructor
  · intro h
    rw [← wordRegImm_fields w, wordRegImm_and_F0FF] at h
    exact ⟨by simpa using congrArg fieldF h, by simpa using congrArg fieldNN h⟩
  · rintro ⟨h, rfl⟩
    rw [eq_wordRegImm h, wordRegImm_and_F0FF, fieldNN_wordRegImm]

/-- The mask of format `REG_REG` looks at the family and `N`. -/
theorem and_F00F_eq {w : Word} {f n : BitVec 4} :
    w &&& 0xF00F = wordRegReg f 0 0 n ↔ fieldF w = f ∧ fieldN w = n.toFin := by
  constructor
  · intro h
    rw [← wordRegReg_fields w, wordRegReg_and_F00F] at h
    exact ⟨by simpa using congrArg fieldF h, by simpa using congrArg fieldN h⟩
  · rintro ⟨h, hn⟩
    have hw := eq_wordRegReg h
    rw [hn] at hw
    rw [hw, wordRegReg_and_F00F]; rfl

/-! ### Bytes -/

theorem opcode_wordBytes (w : Word) : opcode (w.extractLsb' 8 8) (w.extractLsb' 0 8) = w := by
  apply BitVec.eq_of_toNat_eq
  have : (opcode (w.extractLsb' 8 8) (w.extractLsb' 0 8)).toNat = _ := toNat_append_add _ _
  rw [this]
  simp [Nat.shiftRight_eq_div_pow]; omega

/-- The decoder on the bytes of a word, with any bytes after them. -/
theorem decode_wordBytes (w : Word) (rest : List Byte) :
    decode (wordBytes w ++ rest) =
      match decodeWord w with
      | .ok i => .ok (i, rest)
      | .error e => .error e := by
  cases h : decodeWord w <;> simp [wordBytes, decode, opcode_wordBytes, h]

/-- The decoder on two bytes. -/
theorem decode_two (b0 b1 : Byte) :
    decode [b0, b1] =
      match decodeWord (b0 ++ b1) with
      | .ok i => .ok (i, [])
      | .error e => .error e := rfl

/-! ### The families of the decoding procedure -/

theorem decodeWord_family0 {w : Word} (h : fieldF w = 0x0) :
    decodeWord w = decodeFamily0 w := by
  unfold decodeWord; rw [h]; rfl

theorem decodeWord_family1 {w : Word} (h : fieldF w = 0x1) :
    decodeWord w = .ok (.jp (fieldNNN w)) := by
  unfold decodeWord; rw [h]; rfl

theorem decodeWord_family2 {w : Word} (h : fieldF w = 0x2) :
    decodeWord w = .ok (.call (fieldNNN w)) := by
  unfold decodeWord; rw [h]; rfl

theorem decodeWord_family3 {w : Word} (h : fieldF w = 0x3) :
    decodeWord w = .ok (.sei (fieldX w) (fieldNN w)) := by
  unfold decodeWord; rw [h]; rfl

theorem decodeWord_family4 {w : Word} (h : fieldF w = 0x4) :
    decodeWord w = .ok (.snei (fieldX w) (fieldNN w)) := by
  unfold decodeWord; rw [h]; rfl

theorem decodeWord_family5 {w : Word} (h : fieldF w = 0x5) :
    decodeWord w = if fieldN w = 0 then .ok (.se (fieldX w) (fieldY w)) else .error (.malformedSkip 0x5) := by
  unfold decodeWord; rw [h]; rfl

theorem decodeWord_family6 {w : Word} (h : fieldF w = 0x6) :
    decodeWord w = .ok (.ldi (fieldX w) (fieldNN w)) := by
  unfold decodeWord; rw [h]; rfl

theorem decodeWord_family7 {w : Word} (h : fieldF w = 0x7) :
    decodeWord w = .ok (.addi (fieldX w) (fieldNN w)) := by
  unfold decodeWord; rw [h]; rfl

theorem decodeWord_family8 {w : Word} (h : fieldF w = 0x8) :
    decodeWord w = decodeFamily8 (fieldX w) (fieldY w) (fieldN w) := by
  unfold decodeWord; rw [h]; rfl

theorem decodeWord_family9 {w : Word} (h : fieldF w = 0x9) :
    decodeWord w = if fieldN w = 0 then .ok (.sne (fieldX w) (fieldY w)) else .error (.malformedSkip 0x9) := by
  unfold decodeWord; rw [h]; rfl

theorem decodeWord_familyA {w : Word} (h : fieldF w = 0xA) :
    decodeWord w = .ok (.lda (fieldNNN w)) := by
  unfold decodeWord; rw [h]; rfl

theorem decodeWord_familyB {w : Word} (h : fieldF w = 0xB) :
    decodeWord w = .ok (.jp0 (fieldNNN w)) := by
  unfold decodeWord; rw [h]; rfl

theorem decodeWord_familyC {w : Word} (h : fieldF w = 0xC) :
    decodeWord w = .ok (.rnd (fieldX w) (fieldNN w)) := by
  unfold decodeWord; rw [h]; rfl

theorem decodeWord_familyD {w : Word} (h : fieldF w = 0xD) :
    decodeWord w = .ok (.drw (fieldX w) (fieldY w) (fieldN w)) := by
  unfold decodeWord; rw [h]; rfl

theorem decodeWord_familyE {w : Word} (h : fieldF w = 0xE) :
    decodeWord w = decodeFamilyE (fieldX w) (fieldNN w) := by
  unfold decodeWord; rw [h]; rfl

theorem decodeWord_familyF {w : Word} (h : fieldF w = 0xF) :
    decodeWord w = decodeFamilyF (fieldX w) (fieldNN w) := by
  unfold decodeWord; rw [h]; rfl

/-- A 4-bit family is one of sixteen. -/
theorem family_cases (f : BitVec 4) :
    f = 0x0 ∨ f = 0x1 ∨ f = 0x2 ∨ f = 0x3 ∨ f = 0x4 ∨ f = 0x5 ∨ f = 0x6 ∨ f = 0x7 ∨
    f = 0x8 ∨ f = 0x9 ∨ f = 0xA ∨ f = 0xB ∨ f = 0xC ∨ f = 0xD ∨ f = 0xE ∨ f = 0xF := by
  revert f; decide

end Sys2Proof
end

