-- ==== Sys2Proof/Laws/State.lean ====
section
/-! SUPPORT. Laws.State: one lemma per field per update, so that no later proof unfolds a record update. -/

namespace Sys2Proof.Machine

variable (s : State)

/-- The font is spelled as a setting. -/
@[simp] theorem font_eq_settings : s.font = s.settings.font := rfl

/-! ### setV -/

@[simp] theorem setV_I (r : Reg) (b : Byte) : (s.setV r b).I = s.I := rfl
@[simp] theorem setV_pc (r : Reg) (b : Byte) : (s.setV r b).pc = s.pc := rfl
@[simp] theorem setV_stack (r : Reg) (b : Byte) : (s.setV r b).stack = s.stack := rfl
@[simp] theorem setV_sp (r : Reg) (b : Byte) : (s.setV r b).sp = s.sp := rfl
@[simp] theorem setV_dt (r : Reg) (b : Byte) : (s.setV r b).dt = s.dt := rfl
@[simp] theorem setV_st (r : Reg) (b : Byte) : (s.setV r b).st = s.st := rfl
@[simp] theorem setV_keys (r : Reg) (b : Byte) : (s.setV r b).keys = s.keys := rfl
@[simp] theorem setV_fb (r : Reg) (b : Byte) : (s.setV r b).fb = s.fb := rfl
@[simp] theorem setV_prev (r : Reg) (b : Byte) : (s.setV r b).prev = s.prev := rfl
@[simp] theorem setV_mem (r : Reg) (b : Byte) : (s.setV r b).mem = s.mem := rfl
@[simp] theorem setV_fault (r : Reg) (b : Byte) : (s.setV r b).fault = s.fault := rfl
@[simp] theorem setV_draws (r : Reg) (b : Byte) : (s.setV r b).draws = s.draws := rfl
@[simp] theorem setV_schedule (r : Reg) (b : Byte) : (s.setV r b).schedule = s.schedule := rfl
@[simp] theorem setV_settings (r : Reg) (b : Byte) : (s.setV r b).settings = s.settings := rfl
@[simp] theorem setV_readByte (r : Reg) (b : Byte) (a : Nat) : (s.setV r b).readByte a = s.readByte a := rfl
@[simp] theorem setV_stackEntry (r : Reg) (b : Byte) (k : Nat) : (s.setV r b).stackEntry k = s.stackEntry k := rfl

/-! ### setI -/

@[simp] theorem setI_V (w : Word) : (s.setI w).V = s.V := rfl
@[simp] theorem setI_I (w : Word) : (s.setI w).I = w := rfl
@[simp] theorem setI_pc (w : Word) : (s.setI w).pc = s.pc := rfl
@[simp] theorem setI_stack (w : Word) : (s.setI w).stack = s.stack := rfl
@[simp] theorem setI_sp (w : Word) : (s.setI w).sp = s.sp := rfl
@[simp] theorem setI_dt (w : Word) : (s.setI w).dt = s.dt := rfl
@[simp] theorem setI_st (w : Word) : (s.setI w).st = s.st := rfl
@[simp] theorem setI_keys (w : Word) : (s.setI w).keys = s.keys := rfl
@[simp] theorem setI_fb (w : Word) : (s.setI w).fb = s.fb := rfl
@[simp] theorem setI_prev (w : Word) : (s.setI w).prev = s.prev := rfl
@[simp] theorem setI_mem (w : Word) : (s.setI w).mem = s.mem := rfl
@[simp] theorem setI_fault (w : Word) : (s.setI w).fault = s.fault := rfl
@[simp] theorem setI_draws (w : Word) : (s.setI w).draws = s.draws := rfl
@[simp] theorem setI_schedule (w : Word) : (s.setI w).schedule = s.schedule := rfl
@[simp] theorem setI_settings (w : Word) : (s.setI w).settings = s.settings := rfl
@[simp] theorem setI_getV (w : Word) (q : Reg) : (s.setI w).getV q = s.getV q := rfl
@[simp] theorem setI_readByte (w : Word) (a : Nat) : (s.setI w).readByte a = s.readByte a := rfl
@[simp] theorem setI_stackEntry (w : Word) (k : Nat) : (s.setI w).stackEntry k = s.stackEntry k := rfl

/-! ### setPc -/

@[simp] theorem setPc_V (w : Word) : (s.setPc w).V = s.V := rfl
@[simp] theorem setPc_I (w : Word) : (s.setPc w).I = s.I := rfl
@[simp] theorem setPc_pc (w : Word) : (s.setPc w).pc = w := rfl
@[simp] theorem setPc_stack (w : Word) : (s.setPc w).stack = s.stack := rfl
@[simp] theorem setPc_sp (w : Word) : (s.setPc w).sp = s.sp := rfl
@[simp] theorem setPc_dt (w : Word) : (s.setPc w).dt = s.dt := rfl
@[simp] theorem setPc_st (w : Word) : (s.setPc w).st = s.st := rfl
@[simp] theorem setPc_keys (w : Word) : (s.setPc w).keys = s.keys := rfl
@[simp] theorem setPc_fb (w : Word) : (s.setPc w).fb = s.fb := rfl
@[simp] theorem setPc_prev (w : Word) : (s.setPc w).prev = s.prev := rfl
@[simp] theorem setPc_mem (w : Word) : (s.setPc w).mem = s.mem := rfl
@[simp] theorem setPc_fault (w : Word) : (s.setPc w).fault = s.fault := rfl
@[simp] theorem setPc_draws (w : Word) : (s.setPc w).draws = s.draws := rfl
@[simp] theorem setPc_schedule (w : Word) : (s.setPc w).schedule = s.schedule := rfl
@[simp] theorem setPc_settings (w : Word) : (s.setPc w).settings = s.settings := rfl
@[simp] theorem setPc_getV (w : Word) (q : Reg) : (s.setPc w).getV q = s.getV q := rfl
@[simp] theorem setPc_readByte (w : Word) (a : Nat) : (s.setPc w).readByte a = s.readByte a := rfl
@[simp] theorem setPc_stackEntry (w : Word) (k : Nat) : (s.setPc w).stackEntry k = s.stackEntry k := rfl

/-! ### latch -/

@[simp] theorem latch_V (k : Fault) : (s.latch k).V = s.V := rfl
@[simp] theorem latch_I (k : Fault) : (s.latch k).I = s.I := rfl
@[simp] theorem latch_pc (k : Fault) : (s.latch k).pc = s.pc := rfl
@[simp] theorem latch_stack (k : Fault) : (s.latch k).stack = s.stack := rfl
@[simp] theorem latch_sp (k : Fault) : (s.latch k).sp = s.sp := rfl
@[simp] theorem latch_dt (k : Fault) : (s.latch k).dt = s.dt := rfl
@[simp] theorem latch_st (k : Fault) : (s.latch k).st = s.st := rfl
@[simp] theorem latch_keys (k : Fault) : (s.latch k).keys = s.keys := rfl
@[simp] theorem latch_fb (k : Fault) : (s.latch k).fb = s.fb := rfl
@[simp] theorem latch_prev (k : Fault) : (s.latch k).prev = s.prev := rfl
@[simp] theorem latch_mem (k : Fault) : (s.latch k).mem = s.mem := rfl
@[simp] theorem latch_fault (k : Fault) : (s.latch k).fault = some k := rfl
@[simp] theorem latch_draws (k : Fault) : (s.latch k).draws = s.draws := rfl
@[simp] theorem latch_schedule (k : Fault) : (s.latch k).schedule = s.schedule := rfl
@[simp] theorem latch_settings (k : Fault) : (s.latch k).settings = s.settings := rfl
@[simp] theorem latch_getV (k : Fault) (q : Reg) : (s.latch k).getV q = s.getV q := rfl
@[simp] theorem latch_readByte (k : Fault) (a : Nat) : (s.latch k).readByte a = s.readByte a := rfl
@[simp] theorem latch_stackEntry (k : Fault) (j : Nat) : (s.latch k).stackEntry j = s.stackEntry j := rfl

/-! ### writeBytes -/

@[simp] theorem writeBytes_V (a : Nat) (bs : List Byte) : (s.writeBytes a bs).V = s.V := rfl
@[simp] theorem writeBytes_I (a : Nat) (bs : List Byte) : (s.writeBytes a bs).I = s.I := rfl
@[simp] theorem writeBytes_pc (a : Nat) (bs : List Byte) : (s.writeBytes a bs).pc = s.pc := rfl
@[simp] theorem writeBytes_stack (a : Nat) (bs : List Byte) : (s.writeBytes a bs).stack = s.stack := rfl
@[simp] theorem writeBytes_sp (a : Nat) (bs : List Byte) : (s.writeBytes a bs).sp = s.sp := rfl
@[simp] theorem writeBytes_dt (a : Nat) (bs : List Byte) : (s.writeBytes a bs).dt = s.dt := rfl
@[simp] theorem writeBytes_st (a : Nat) (bs : List Byte) : (s.writeBytes a bs).st = s.st := rfl
@[simp] theorem writeBytes_keys (a : Nat) (bs : List Byte) : (s.writeBytes a bs).keys = s.keys := rfl
@[simp] theorem writeBytes_fb (a : Nat) (bs : List Byte) : (s.writeBytes a bs).fb = s.fb := rfl
@[simp] theorem writeBytes_prev (a : Nat) (bs : List Byte) : (s.writeBytes a bs).prev = s.prev := rfl
@[simp] theorem writeBytes_mem (a : Nat) (bs : List Byte) :
    (s.writeBytes a bs).mem = s.mem.write s.font a bs := rfl
@[simp] theorem writeBytes_fault (a : Nat) (bs : List Byte) : (s.writeBytes a bs).fault = s.fault := rfl
@[simp] theorem writeBytes_draws (a : Nat) (bs : List Byte) : (s.writeBytes a bs).draws = s.draws := rfl
@[simp] theorem writeBytes_schedule (a : Nat) (bs : List Byte) : (s.writeBytes a bs).schedule = s.schedule := rfl
@[simp] theorem writeBytes_settings (a : Nat) (bs : List Byte) : (s.writeBytes a bs).settings = s.settings := rfl
@[simp] theorem writeBytes_getV (a : Nat) (bs : List Byte) (q : Reg) : (s.writeBytes a bs).getV q = s.getV q := rfl

/-! ### setFlag -/

@[simp] theorem setFlag_I (c : Bool) : (s.setFlag c).I = s.I := rfl
@[simp] theorem setFlag_pc (c : Bool) : (s.setFlag c).pc = s.pc := rfl
@[simp] theorem setFlag_stack (c : Bool) : (s.setFlag c).stack = s.stack := rfl
@[simp] theorem setFlag_sp (c : Bool) : (s.setFlag c).sp = s.sp := rfl
@[simp] theorem setFlag_dt (c : Bool) : (s.setFlag c).dt = s.dt := rfl
@[simp] theorem setFlag_st (c : Bool) : (s.setFlag c).st = s.st := rfl
@[simp] theorem setFlag_keys (c : Bool) : (s.setFlag c).keys = s.keys := rfl
@[simp] theorem setFlag_fb (c : Bool) : (s.setFlag c).fb = s.fb := rfl
@[simp] theorem setFlag_prev (c : Bool) : (s.setFlag c).prev = s.prev := rfl
@[simp] theorem setFlag_mem (c : Bool) : (s.setFlag c).mem = s.mem := rfl
@[simp] theorem setFlag_fault (c : Bool) : (s.setFlag c).fault = s.fault := rfl
@[simp] theorem setFlag_draws (c : Bool) : (s.setFlag c).draws = s.draws := rfl
@[simp] theorem setFlag_schedule (c : Bool) : (s.setFlag c).schedule = s.schedule := rfl
@[simp] theorem setFlag_settings (c : Bool) : (s.setFlag c).settings = s.settings := rfl
@[simp] theorem setFlag_readByte (c : Bool) (a : Nat) : (s.setFlag c).readByte a = s.readByte a := rfl
@[simp] theorem setFlag_stackEntry (c : Bool) (k : Nat) : (s.setFlag c).stackEntry k = s.stackEntry k := rfl

/-! ### Registers: read after write -/

@[simp] theorem getV_setV_self (r : Reg) (b : Byte) : (s.setV r b).getV r = b := by
  simp [State.getV, State.setV]

theorem getV_setV_ne {r q : Reg} (b : Byte) (h : q ≠ r) : (s.setV r b).getV q = s.getV q := by
  have : r.val ≠ q.val := fun e => h (Fin.ext e.symm)
  simp [State.getV, State.setV, this]

theorem getV_setV (r q : Reg) (b : Byte) : (s.setV r b).getV q = if q = r then b else s.getV q := by
  by_cases h : q = r
  · subst h; simp
  · simp [h, getV_setV_ne]

@[simp] theorem getV_setFlag_self (c : Bool) : (s.setFlag c).getV VF = flagByte c := by
  simp [State.setFlag]

theorem getV_setFlag_ne {q : Reg} (c : Bool) (h : q ≠ VF) : (s.setFlag c).getV q = s.getV q :=
  getV_setV_ne s _ h

theorem getV_setFlag (c : Bool) (q : Reg) : (s.setFlag c).getV q = if q = VF then flagByte c else s.getV q :=
  getV_setV s VF q _

/-! ### pc moves are writes of pc -/

@[simp] theorem advance_eq_setPc : s.advance = s.setPc (s.pc + 2) := rfl

@[simp] theorem skip_eq_setPc : s.skip = s.setPc (s.pc + 2) := rfl

@[simp] theorem rewind_eq_setPc : s.rewind = s.setPc (s.pc - 2) := rfl

theorem skipIf_eq_setPc (c : Bool) : s.skipIf c = s.setPc (if c then s.pc + 2 else s.pc) := by
  cases c <;> rfl

/-! ### Writing a block of registers -/

@[simp] theorem setRegs_I (bs : List Byte) (k : Nat) : (s.setRegs k bs).I = s.I := by
  induction bs generalizing s k with
  | nil => rfl
  | cons b bs ih => exact ih _ _

@[simp] theorem setRegs_pc (bs : List Byte) (k : Nat) : (s.setRegs k bs).pc = s.pc := by
  induction bs generalizing s k with
  | nil => rfl
  | cons b bs ih => exact ih _ _

@[simp] theorem setRegs_stack (bs : List Byte) (k : Nat) : (s.setRegs k bs).stack = s.stack := by
  induction bs generalizing s k with
  | nil => rfl
  | cons b bs ih => exact ih _ _

@[simp] theorem setRegs_sp (bs : List Byte) (k : Nat) : (s.setRegs k bs).sp = s.sp := by
  induction bs generalizing s k with
  | nil => rfl
  | cons b bs ih => exact ih _ _

@[simp] theorem setRegs_dt (bs : List Byte) (k : Nat) : (s.setRegs k bs).dt = s.dt := by
  induction bs generalizing s k with
  | nil => rfl
  | cons b bs ih => exact ih _ _

@[simp] theorem setRegs_st (bs : List Byte) (k : Nat) : (s.setRegs k bs).st = s.st := by
  induction bs generalizing s k with
  | nil => rfl
  | cons b bs ih => exact ih _ _

@[simp] theorem setRegs_keys (bs : List Byte) (k : Nat) : (s.setRegs k bs).keys = s.keys := by
  induction bs generalizing s k with
  | nil => rfl
  | cons b bs ih => exact ih _ _

@[simp] theorem setRegs_fb (bs : List Byte) (k : Nat) : (s.setRegs k bs).fb = s.fb := by
  induction bs generalizing s k with
  | nil => rfl
  | cons b bs ih => exact ih _ _

@[simp] theorem setRegs_prev (bs : List Byte) (k : Nat) : (s.setRegs k bs).prev = s.prev := by
  induction bs generalizing s k with
  | nil => rfl
  | cons b bs ih => exact ih _ _

@[simp] theorem setRegs_mem (bs : List Byte) (k : Nat) : (s.setRegs k bs).mem = s.mem := by
  induction bs generalizing s k with
  | nil => rfl
  | cons b bs ih => exact ih _ _

@[simp] theorem setRegs_fault (bs : List Byte) (k : Nat) : (s.setRegs k bs).fault = s.fault := by
  induction bs generalizing s k with
  | nil => rfl
  | cons b bs ih => exact ih _ _

@[simp] theorem setRegs_draws (bs : List Byte) (k : Nat) : (s.setRegs k bs).draws = s.draws := by
  induction bs generalizing s k with
  | nil => rfl
  | cons b bs ih => exact ih _ _

@[simp] theorem setRegs_schedule (bs : List Byte) (k : Nat) : (s.setRegs k bs).schedule = s.schedule := by
  induction bs generalizing s k with
  | nil => rfl
  | cons b bs ih => exact ih _ _

@[simp] theorem setRegs_settings (bs : List Byte) (k : Nat) : (s.setRegs k bs).settings = s.settings := by
  induction bs generalizing s k with
  | nil => rfl
  | cons b bs ih => exact ih _ _

@[simp] theorem setRegs_readByte (bs : List Byte) (k a : Nat) : (s.setRegs k bs).readByte a = s.readByte a := by
  simp [State.readByte]

theorem getV_setRegs_of_lt (bs : List Byte) (k : Nat) (q : Reg) (h : q.val < k) :
    (s.setRegs k bs).getV q = s.getV q := by
  induction bs generalizing s k with
  | nil => rfl
  | cons b bs ih =>
    have hk : k ≠ q.val := by omega
    rw [State.setRegs, ih _ _ (by omega)]
    simp [State.getV, hk]

/-- A block write puts byte `j` into register `k + j`, and leaves the registers outside the block. -/
theorem getV_setRegs (bs : List Byte) (k : Nat) (q : Reg) :
    (s.setRegs k bs).getV q = if k ≤ q.val then bs.getD (q.val - k) (s.getV q) else s.getV q := by
  induction bs generalizing s k with
  | nil => simp [State.setRegs]
  | cons b bs ih =>
    rw [State.setRegs, ih]
    by_cases h1 : k + 1 ≤ q.val
    · have hne : k ≠ q.val := by omega
      have : q.val - k = (q.val - (k + 1)) + 1 := by omega
      simp [h1, show k ≤ q.val by omega, this, State.getV, hne]
    · by_cases h2 : k = q.val
      · simp [State.getV, h2]
      · simp [State.getV, h2, show ¬ k ≤ q.val by omega, show ¬ k + 1 ≤ q.val by omega]

end Sys2Proof.Machine
end

