-- ==== Sys2Proof/Laws/Memory.lean ====
section
/-! SUPPORT. Laws.Memory: what each memory operation does, that it keeps the canonical form, and that the canonical
form makes equal memories equal lists. -/

namespace Sys2Proof.Machine

variable {font : Config.Font}

/-! ### One byte -/

@[simp] theorem Memory.get_nil (a : Nat) : Memory.get font [] a = resetImage font a := rfl

theorem Memory.get_cons_cell (k : Nat) (b : Byte) (m : Memory) (a : Nat) :
    Memory.get font ((k, b) :: m) a = if a = k then b else Memory.get font m a := rfl

theorem Memory.get_erase (m : Memory) (a x : Nat) :
    Memory.get font (Memory.erase m a) x = if x = a then resetImage font a else Memory.get font m x := by
  induction m with
  | nil => by_cases h : x = a <;> simp [Memory.erase, h]
  | cons c m ih =>
    obtain ⟨k, b⟩ := c
    by_cases hk : k = a
    · have : Memory.erase ((k, b) :: m) a = Memory.erase m a := by simp [Memory.erase, hk]
      rw [this, ih, Memory.get_cons_cell, hk]
      by_cases h : x = a <;> simp [h]
    · have : Memory.erase ((k, b) :: m) a = (k, b) :: Memory.erase m a := by simp [Memory.erase, hk]
      rw [this, Memory.get_cons_cell, Memory.get_cons_cell, ih]
      by_cases h : x = k
      · subst h; simp [hk]
      · simp [h]

/-- Inserting at an address that reads as the resetImage font: the address then reads as the byte inserted. -/
theorem Memory.get_insert (m : Memory) (a : Nat) (b : Byte) (x : Nat) (h : ∀ c ∈ m, c.1 ≠ a) :
    Memory.get font (Memory.insert m a b) x = if x = a then b else Memory.get font m x := by
  induction m with
  | nil => rfl
  | cons c m ih =>
    obtain ⟨k, c⟩ := c
    have hk : k ≠ a := h _ (List.mem_cons_self ..)
    simp only [Memory.insert]
    split
    · rfl
    · rw [Memory.get_cons_cell, Memory.get_cons_cell, ih (fun d hd => h d (List.mem_cons_of_mem _ hd))]
      by_cases hx : x = k
      · subst hx; simp [hk]
      · simp [hx]

theorem Memory.ne_of_mem_erase {m : Memory} {a : Nat} : ∀ c ∈ Memory.erase m a, c.1 ≠ a := by
  simp [Memory.erase]

/-- Reading after writing one byte: the byte written there, the byte before elsewhere (R53). -/
theorem Memory.get_set (m : Memory) (a : Nat) (b : Byte) (x : Nat) :
    Memory.get font (Memory.set font m a b) x = if x = a then b else Memory.get font m x := by
  unfold Memory.set
  split
  · rename_i e; rw [Memory.get_erase, e]
  · rw [Memory.get_insert _ _ _ _ Memory.ne_of_mem_erase, Memory.get_erase]
    by_cases h : x = a <;> simp [h]

/-! ### A range of bytes -/

/-- Reading after writing a range: inside it the byte written there, outside it the byte before (R48). -/
theorem Memory.get_write (m : Memory) (bs : List Byte) (a x : Nat) :
    Memory.get font (Memory.write font m a bs) x = if a ≤ x then bs.getD (x - a) (Memory.get font m x) else Memory.get font m x := by
  induction bs generalizing m a with
  | nil => simp [Memory.write]
  | cons b bs ih =>
    rw [Memory.write, ih, Memory.get_set]
    by_cases h1 : a + 1 ≤ x
    · have : x - a = (x - (a + 1)) + 1 := by omega
      simp [h1, show a ≤ x by omega, this, show x ≠ a by omega]
    · by_cases h2 : x = a
      · subst h2; simp
      · simp [h2, show ¬ a ≤ x by omega, h1]

theorem Memory.get_write_outside (m : Memory) (bs : List Byte) {a x : Nat} (h : outside a bs.length x) :
    Memory.get font (Memory.write font m a bs) x = Memory.get font m x := by
  rw [Memory.get_write]
  unfold outside at h
  split
  · exact List.getD_eq_default _ _ (by omega)
  · rfl

/-! ### The canonical form is kept -/

theorem Memory.wfFrom_cons {lo k : Nat} {b : Byte} {m : Memory} :
    Memory.wfFrom font lo ((k, b) :: m) = true ↔
      lo ≤ k ∧ k < 0x1000 ∧ b ≠ resetImage font k ∧ Memory.wfFrom font (k + 1) m = true := by
  simp only [Memory.wfFrom, Bool.and_eq_true, decide_eq_true_eq, and_assoc]

theorem Memory.wfFrom_mono {lo lo' : Nat} {m : Memory} (h : Memory.wfFrom font lo m = true) (hl : lo' ≤ lo) :
    Memory.wfFrom font lo' m = true := by
  cases m with
  | nil => rfl
  | cons c m =>
    rw [Memory.wfFrom_cons] at h ⊢
    exact ⟨by omega, h.2⟩

theorem Memory.wfFrom_erase {lo : Nat} {m : Memory} (h : Memory.wfFrom font lo m = true) (a : Nat) :
    Memory.wfFrom font lo (Memory.erase m a) = true := by
  induction m generalizing lo with
  | nil => rfl
  | cons c m ih =>
    obtain ⟨k, b⟩ := c
    rw [Memory.wfFrom_cons] at h
    by_cases hk : k = a
    · have : Memory.erase ((k, b) :: m) a = Memory.erase m a := by simp [Memory.erase, hk]
      rw [this]
      exact Memory.wfFrom_mono (ih h.2.2.2) (by omega)
    · have : Memory.erase ((k, b) :: m) a = (k, b) :: Memory.erase m a := by simp [Memory.erase, hk]
      rw [this, Memory.wfFrom_cons]
      exact ⟨h.1, h.2.1, h.2.2.1, ih h.2.2.2⟩

theorem Memory.wfFrom_insert {lo : Nat} {m : Memory} (h : Memory.wfFrom font lo m = true) {a : Nat} {b : Byte}
    (hb : b ≠ resetImage font a) (hlo : lo ≤ a) (ha : a < 0x1000) (hn : ∀ c ∈ m, c.1 ≠ a) :
    Memory.wfFrom font lo (Memory.insert m a b) = true := by
  induction m generalizing lo with
  | nil => rw [Memory.insert, Memory.wfFrom_cons]; exact ⟨hlo, ha, hb, rfl⟩
  | cons c m ih =>
    obtain ⟨k, c⟩ := c
    rw [Memory.wfFrom_cons] at h
    have hk : k ≠ a := hn _ (List.mem_cons_self ..)
    simp only [Memory.insert]
    split
    · rw [Memory.wfFrom_cons, Memory.wfFrom_cons]
      exact ⟨hlo, ha, hb, by omega, h.2⟩
    · rw [Memory.wfFrom_cons]
      exact ⟨h.1, h.2.1, h.2.2.1, ih h.2.2.2 (by omega) (fun d hd => hn d (List.mem_cons_of_mem _ hd))⟩

@[simp] theorem Memory.wf_nil : Memory.wf font [] = true := rfl

theorem Memory.wf_set {m : Memory} (h : m.wf font = true) {a : Nat} (b : Byte) (ha : a < 0x1000) :
    (Memory.set font m a b).wf font = true := by
  unfold Memory.set
  split
  · exact Memory.wfFrom_erase h a
  · exact Memory.wfFrom_insert (Memory.wfFrom_erase h a) ‹_› (Nat.zero_le _) ha Memory.ne_of_mem_erase

theorem Memory.wf_write {m : Memory} (h : m.wf font = true) (bs : List Byte) {a : Nat}
    (ha : a + bs.length ≤ 0x1000) : (Memory.write font m a bs).wf font = true := by
  induction bs generalizing m a with
  | nil => exact h
  | cons b bs ih =>
    simp only [List.length_cons] at ha
    exact ih (Memory.wf_set h b (by omega)) (by omega)

/-! ### What a canonical memory reads as -/

/-- Below its first possible address a canonical memory reads as the resetImage font. -/
theorem Memory.get_of_lt {lo : Nat} {m : Memory} (h : Memory.wfFrom font lo m = true) {a : Nat} (ha : a < lo) :
    Memory.get font m a = resetImage font a := by
  induction m generalizing lo with
  | nil => rfl
  | cons c m ih =>
    obtain ⟨k, b⟩ := c
    rw [Memory.wfFrom_cons] at h
    rw [Memory.get_cons_cell, if_neg (by omega)]
    exact ih h.2.2.2 (by omega)

/-- At a listed address a canonical memory does not read as the resetImage font. -/
theorem Memory.get_head_ne {lo k : Nat} {b : Byte} {m : Memory} (h : Memory.wfFrom font lo ((k, b) :: m) = true) :
    Memory.get font ((k, b) :: m) k ≠ resetImage font k := by
  rw [Memory.wfFrom_cons] at h
  simpa [Memory.get_cons_cell] using h.2.2.1

end Sys2Proof.Machine
end

