-- ==== Sys2Proof/Laws/Ops.lean ====
section
/-! SUPPORT. Laws.Ops: for each shared operation, once, everything it can do. -/

namespace Sys2Proof.Machine

/-! ### Ranges -/

theorem inRange_iff {addr n : Nat} : inRange addr n = true ↔ n = 0 ∨ addr + n ≤ 0x1000 := by
  simp only [inRange, decide_eq_true_eq, Config.topAddress]
  omega

theorem inRange_eq_false {addr n : Nat} : inRange addr n = false ↔ n ≠ 0 ∧ addr + n > 0x1000 := by
  rw [← Bool.not_eq_true, inRange_iff]
  omega

theorem inRange_fetch {pc : Nat} : inRange pc 2 = true ↔ pc + 1 ≤ 0xFFF := by
  rw [inRange_iff]; omega

/-! ### Reading -/

@[simp] theorem length_readBytes (s : State) (addr n : Nat) : (s.readBytes addr n).length = n := by
  simp [State.readBytes]

@[simp] theorem getElem_readBytes (s : State) (addr n k : Nat) (h : k < (s.readBytes addr n).length) :
    (s.readBytes addr n)[k] = s.readByte (addr + k) := by
  simp [State.readBytes]

theorem memRead_eq_some {s : State} {addr n : Nat} {bs : List Byte} :
    s.memRead addr n = some bs ↔ inRange addr n = true ∧ bs = s.readBytes addr n := by
  unfold State.memRead
  split <;> simp [*, eq_comm]

theorem memRead_eq_none {s : State} {addr n : Nat} : s.memRead addr n = none ↔ inRange addr n = false := by
  unfold State.memRead
  split <;> simp [*]

theorem memRead_of_inRange {s : State} {addr n : Nat} (h : inRange addr n = true) :
    s.memRead addr n = some (s.readBytes addr n) := if_pos h

/-- What is read depends on the bytes alone. -/
theorem memRead_congr {s t : State} (h : ∀ a, t.readByte a = s.readByte a) (addr n : Nat) :
    t.memRead addr n = s.memRead addr n := by
  simp [State.memRead, State.readBytes, h]

theorem readBytes_two (s : State) (a : Nat) : s.readBytes a 2 = [s.readByte a, s.readByte (a + 1)] := rfl

/-! ### Writing -/

theorem memWrite_eq_some {s t : State} {addr : Nat} {bs : List Byte} :
    s.memWrite addr bs = some t ↔
      inRange addr bs.length = true ∧ t = s.writeBytes addr bs := by
  unfold State.memWrite
  split <;> simp [*, eq_comm]

theorem memWrite_eq_none {s : State} {addr : Nat} {bs : List Byte} :
    s.memWrite addr bs = none ↔ inRange addr bs.length = false := by
  unfold State.memWrite
  split <;> simp [*]

theorem memWrite_of_inRange {s : State} {addr : Nat} {bs : List Byte} (h : inRange addr bs.length = true) :
    s.memWrite addr bs = some (s.writeBytes addr bs) := if_pos h

/-- A byte after a write: the byte written there, or the byte before. -/
theorem readByte_write (s : State) (addr : Nat) (bs : List Byte) (a : Nat) :
    (s.writeBytes addr bs).readByte a =
      if addr ≤ a then bs.getD (a - addr) (s.readByte a) else s.readByte a :=
  Memory.get_write s.mem bs addr a

theorem readByte_write_inside (s : State) (addr : Nat) (bs : List Byte) (k : Nat) (h : k < bs.length) :
    (s.writeBytes addr bs).readByte (addr + k) = bs[k] := by
  rw [readByte_write, if_pos (by omega)]
  simp [h]

theorem memSameOutside_write (s : State) (addr : Nat) (bs : List Byte) :
    MemSameOutside addr bs.length s (s.writeBytes addr bs) :=
  fun _ h => Memory.get_write_outside s.mem bs h

@[simp] theorem length_regBytes (s : State) (x : Reg) : (s.regBytes (blockCount x)).length = blockCount x := by
  simp [State.regBytes, blockCount]

theorem getElem_regBytes (s : State) (n k : Nat) (h : k < (s.regBytes n).length) (hk : k < 16) :
    (s.regBytes n)[k] = s.getV ⟨k, hk⟩ := by
  simp [State.regBytes, State.getV]

/-! ### Stack -/

theorem push_eq_none {s : State} {w : Word} : s.push w = none ↔ s.sp.val = 16 := by
  unfold State.push
  split <;> simp [*]

theorem pop_eq_none {s : State} : s.pop = none ↔ s.sp.val = 0 := by
  unfold State.pop
  split <;> simp [*]

/-- A push that succeeds: one entry more, the word on top, the entries elsewhere and all other state as they were. -/
theorem push_eq_some {s t : State} {w : Word} (h : s.push w = some t) :
    s.sp.val < 16 ∧ t.sp.val = s.sp.val + 1 ∧ t.stackEntry s.sp.val = w ∧
      (∀ k, k ≠ s.sp.val → t.stackEntry k = s.stackEntry k) ∧
      t = { s with stack := t.stack, sp := t.sp } := by
  unfold State.push at h
  split at h
  · simp at h
  · rename_i hne
    have hlt : s.sp.val < 16 := by omega
    obtain rfl := Option.some.inj h
    refine ⟨hlt, rfl, ?_, ?_, rfl⟩
    · simp [State.stackEntry, hlt]
    · intro k hk
      simp [State.stackEntry, Ne.symm hk]

/-- A pop that succeeds: one entry less, the top word, everything else, the stack's contents too, as it was. -/
theorem pop_eq_some {s t : State} {w : Word} (h : s.pop = some (w, t)) :
    0 < s.sp.val ∧ t.sp.val = s.sp.val - 1 ∧ w = s.stackEntry (s.sp.val - 1) ∧ t = { s with sp := t.sp } := by
  unfold State.pop at h
  split at h
  · simp at h
  · rename_i hne
    have hlt : s.sp.val - 1 < 16 := by omega
    simp only [Option.some.injEq, Prod.mk.injEq] at h
    obtain ⟨rfl, rfl⟩ := h
    exact ⟨by omega, rfl, by simp [State.stackEntry, hlt], rfl⟩

theorem sameExcept_push {s t : State} {w : Word} (h : s.push w = some t) : SameExcept [.stack, .sp] s t := by
  rw [(push_eq_some h).2.2.2.2]
  constructor
  case stack => intro h; simp at h
  case sp => intro h; simp at h
  all_goals intros; rfl

theorem sameExcept_pop {s t : State} {w : Word} (h : s.pop = some (w, t)) : SameExcept [.sp] s t := by
  rw [(pop_eq_some h).2.2.2]
  constructor
  case sp => intro h; simp at h
  all_goals intros; rfl

theorem exists_push {s : State} (w : Word) (h : s.sp.val < 16) : ∃ t, s.push w = some t :=
  Option.ne_none_iff_exists'.mp (fun e => by have := push_eq_none.mp e; omega)

theorem exists_pop {s : State} (h : 0 < s.sp.val) : ∃ w t, s.pop = some (w, t) := by
  obtain ⟨⟨w, t⟩, h⟩ := Option.ne_none_iff_exists'.mp (fun e => by have := pop_eq_none.mp e; omega : s.pop ≠ none)
  exact ⟨w, t, h⟩

/-! ### Unchanged state -/

theorem SameExcept.refl (w : List Part) (s : State) : SameExcept w s s := by
  constructor <;> intros <;> rfl

theorem SameExcept.mono {w w' : List Part} {s t : State} (h : SameExcept w s t) (hw : ∀ p ∈ w, p ∈ w') :
    SameExcept w' s t where
  V r hr := h.V r (fun m => hr (hw _ m))
  I hr := h.I (fun m => hr (hw _ m))
  pc hr := h.pc (fun m => hr (hw _ m))
  stack hr := h.stack (fun m => hr (hw _ m))
  sp hr := h.sp (fun m => hr (hw _ m))
  dt hr := h.dt (fun m => hr (hw _ m))
  st hr := h.st (fun m => hr (hw _ m))
  keys hr := h.keys (fun m => hr (hw _ m))
  fb hr := h.fb (fun m => hr (hw _ m))
  prev hr := h.prev (fun m => hr (hw _ m))
  mem hr := h.mem (fun m => hr (hw _ m))
  fault hr := h.fault (fun m => hr (hw _ m))
  draws hr := h.draws (fun m => hr (hw _ m))
  schedule hr := h.schedule (fun m => hr (hw _ m))
  settings := h.settings

theorem SameExcept.trans {w : List Part} {s t u : State} (h : SameExcept w s t) (h' : SameExcept w t u) :
    SameExcept w s u where
  V r hr := (h'.V r hr).trans (h.V r hr)
  I hr := (h'.I hr).trans (h.I hr)
  pc hr := (h'.pc hr).trans (h.pc hr)
  stack hr := (h'.stack hr).trans (h.stack hr)
  sp hr := (h'.sp hr).trans (h.sp hr)
  dt hr := (h'.dt hr).trans (h.dt hr)
  st hr := (h'.st hr).trans (h.st hr)
  keys hr := (h'.keys hr).trans (h.keys hr)
  fb hr := (h'.fb hr).trans (h.fb hr)
  prev hr := (h'.prev hr).trans (h.prev hr)
  mem hr := fun a => (h'.mem hr a).trans (h.mem hr a)
  fault hr := (h'.fault hr).trans (h.fault hr)
  draws hr := (h'.draws hr).trans (h.draws hr)
  schedule hr := (h'.schedule hr).trans (h.schedule hr)
  settings := h'.settings.trans h.settings

/-- Where memory is not among what may change, every byte reads as before, inside any range too. -/
theorem SameExcept.memSameOutside {w : List Part} {s t : State} (h : SameExcept w s t) (hm : Part.mem ∉ w)
    (base n : Nat) : MemSameOutside base n s t := fun a _ => h.mem hm a

theorem sameExcept_setV (s : State) (r : Reg) (b : Byte) : SameExcept [.V r] s (s.setV r b) := by
  constructor
  case V => intro q hq; exact getV_setV_ne s b (fun e => hq (by simp [e]))
  all_goals intros; rfl

theorem sameExcept_setPc (s : State) (w : Word) : SameExcept [.pc] s (s.setPc w) := by
  constructor
  case pc => intro h; simp at h
  all_goals intros; rfl

theorem sameExcept_setI (s : State) (w : Word) : SameExcept [.I] s (s.setI w) := by
  constructor
  case I => intro h; simp at h
  all_goals intros; rfl

theorem sameExcept_latch (s : State) (k : Fault) : SameExcept [.fault] s (s.latch k) := by
  constructor
  case fault => intro h; simp at h
  all_goals intros; rfl

theorem sameExcept_setFlag (s : State) (c : Bool) : SameExcept [.V VF] s (s.setFlag c) := sameExcept_setV s VF _

theorem sameExcept_skipIf (s : State) (c : Bool) : SameExcept [.pc] s (s.skipIf c) := by
  rw [skipIf_eq_setPc]; exact sameExcept_setPc s _

theorem sameExcept_setV_setFlag (s : State) (x : Reg) (b : Byte) (c : Bool) :
    SameExcept [.V x, .V VF] s ((s.setV x b).setFlag c) :=
  ((sameExcept_setV s x b).mono (by simp)).trans ((sameExcept_setFlag _ c).mono (by simp))

theorem sameExcept_setFlag_setV (s : State) (x : Reg) (b : Byte) (c : Bool) :
    SameExcept [.V x, .V VF] s ((s.setFlag c).setV x b) :=
  ((sameExcept_setFlag s c).mono (by simp)).trans ((sameExcept_setV _ x b).mono (by simp))

theorem sameExcept_write (s : State) (addr : Nat) (bs : List Byte) :
    SameExcept [.mem] s (s.writeBytes addr bs) := by
  constructor
  case mem => intro h; simp at h
  all_goals intros; rfl

theorem mem_partsUpTo {x : Reg} {p : Part} : p ∈ partsUpTo x ↔ ∃ r, r ≤ x ∧ p = .V r := by
  simp [partsUpTo, eq_comm]

theorem sameExcept_setRegs (s : State) (x : Reg) (bs : List Byte) (h : bs.length = blockCount x) :
    SameExcept (partsUpTo x) s (s.setRegs 0 bs) := by
  constructor
  case V =>
    intro q hq
    have hx : x < q := by
      by_contra hn
      exact hq (mem_partsUpTo.mpr ⟨q, not_lt.mp hn, rfl⟩)
    have : x.val < q.val := hx
    rw [getV_setRegs]
    simp [h, blockCount, show ¬ q.val < x.val + 1 by omega]
  all_goals intros; simp

end Sys2Proof.Machine
end

