-- ==== Sys2Proof/Laws/Exec.lean ====
section
/-! SUPPORT. Laws.Exec: for each meaning with a check or a choice, its answer as a condition on the state. The other
meanings are one update each, and `rfl` gives their answer. -/

namespace Sys2Proof.Machine

/-! ### Control -/

theorem execRet_empty {s : State} (h : s.sp.val = 0) : execRet s = raise .stackUnderflow s := by
  simp [execRet, pop_eq_none.mpr h]

theorem execRet_pop {s t : State} {w : Word} (h : s.pop = some (w, t)) : execRet s = .next (t.setPc w) := by
  simp [execRet, h]

theorem execCall_full {nnn : Lit12} {s : State} (h : s.sp.val = 16) : execCall nnn s = raise .stackOverflow s := by
  simp [execCall, push_eq_none.mpr h]

theorem execCall_push {nnn : Lit12} {s t : State} (h : s.push s.pc = some t) :
    execCall nnn s = .next (t.setPc (addrLit nnn)) := by
  simp [execCall, h]

@[simp] theorem toNat_addrLit (nnn : Lit12) : (addrLit nnn).toNat = nnn.toNat := by
  simp [addrLit]; omega

@[simp] theorem toNat_wide (b : Byte) : (wide b).toNat = b.toNat := by
  simp [wide]; omega

/-! ### Index -/

/-- ADDA is one write of I and one of VF, whatever the setting. -/
theorem sameExcept_addIndex (p : Config.Fx1eElse) (x : Reg) (s : State) : SameExcept [.I, .V VF] s (addIndex p x s) :=
  ((sameExcept_setI s _).mono (by simp)).trans ((sameExcept_setV _ VF _).mono (by simp))

theorem getV_addIndex_VF (p : Config.Fx1eElse) (x : Reg) (s : State) :
    (addIndex p x s).getV VF = indexFlag p (indexOverflow s.I (s.getV x)) (s.getV VF) :=
  getV_setV_self _ VF _

/-! ### Memory transfers -/

/-- The range an instruction names does not depend on pc. -/
@[simp] theorem dataRange_setPc (i : Instr) (s : State) (w : Word) : dataRange i (s.setPc w) = dataRange i s := by
  cases i <;> rfl

@[simp] theorem length_bcdDigits (v : Byte) : (bcdDigits v).length = bcdCount := rfl

theorem execBcd_eq (x : Reg) (s : State) :
    execBcd x s =
      if inRange s.dataAddr bcdCount then .next (s.writeBytes s.dataAddr (bcdDigits (s.getV x)))
      else raise .memoryBounds s := by
  unfold execBcd State.memWrite
  rw [length_bcdDigits]
  split <;> simp_all

theorem execStm_eq (x : Reg) (s : State) :
    execStm x s =
      if inRange s.dataAddr (blockCount x) then
        .next (s.writeBytes s.dataAddr (s.regBytes (blockCount x)))
      else raise .memoryBounds s := by
  unfold execStm State.memWrite
  rw [length_regBytes]
  split <;> simp_all

theorem execLdm_eq (x : Reg) (s : State) :
    execLdm x s =
      if inRange s.dataAddr (blockCount x) then .next (s.setRegs 0 (s.readBytes s.dataAddr (blockCount x)))
      else raise .memoryBounds s := by
  unfold execLdm State.memRead
  split <;> simp_all

theorem execDrw_eq (x y : Reg) (n : Rows) (s : State) :
    execDrw x y n s =
      if inRange s.dataAddr n.val then .next (s.drawSprite s.settings.drawXPolicy x y (s.readBytes s.dataAddr n.val))
      else raise .memoryBounds s := by
  unfold execDrw State.memRead
  split <;> simp_all

/-! ### Keys -/

theorem keyIndex_eq_none {v : Byte} : keyIndex v = none ↔ v.toNat > 0xF := by
  unfold keyIndex; split <;> simp_all

theorem keyIndex_eq_some {v : Byte} {k : Nat} : keyIndex v = some k ↔ v.toNat ≤ 0xF ∧ k = v.toNat := by
  unfold keyIndex; split <;> simp_all [eq_comm]

theorem execSkp_eq (x : Reg) (s : State) :
    execSkp x s =
      if (s.getV x).toNat > 0xF then raise .invalidOpcode s
      else .next (s.skipIf (keyIsDown s.keys (s.getV x).toNat)) := by
  unfold execSkp keyIndex
  by_cases h : (s.getV x).toNat > 0xF <;> simp [h]

theorem execSknp_eq (x : Reg) (s : State) :
    execSknp x s =
      if (s.getV x).toNat > 0xF then raise .invalidOpcode s
      else .next (s.skipIf (!keyIsDown s.keys (s.getV x).toNat)) := by
  unfold execSknp keyIndex
  by_cases h : (s.getV x).toNat > 0xF <;> simp [h]

/-- No key is the lowest one down exactly where no key is down. -/
theorem lowestKey_eq_none {mask : BitVec 16} : lowestKey mask = none ↔ mask = 0 := by
  unfold lowestKey keyIsDown
  rw [List.find?_eq_none]
  constructor
  · intro h
    apply BitVec.eq_of_getLsbD_eq
    intro k hk
    simpa using h k (by simpa using hk)
  · rintro rfl
    simp

/-- The lowest key down is down, is one of the sixteen, and every lower one is up. -/
theorem lowestKey_eq_some {mask : BitVec 16} {k : Nat} (h : lowestKey mask = some k) :
    k < 16 ∧ mask.getLsbD k = true ∧ ∀ j, j < k → mask.getLsbD j = false := by
  unfold lowestKey keyIsDown at h
  rw [List.find?_range_eq_some] at h
  obtain ⟨h1, h2, h3⟩ := h
  exact ⟨by simpa using h2, h1, fun j hj => by simpa using h3 j hj⟩

theorem execWkey_none {x : Reg} {s : State} (h : s.keys = 0) : execWkey x s = .next s.rewind := by
  simp [execWkey, lowestKey_eq_none.mpr h]

theorem execWkey_some {x : Reg} {s : State} {k : Nat} (h : lowestKey s.keys = some k) :
    execWkey x s = .next (s.setV x (BitVec.ofNat 8 k)) := by
  simp [execWkey, h]

end Sys2Proof.Machine
end

