-- ==== Sys2Proof/Laws/Display.lean ====
section
/-! SUPPORT. Laws.Display: pixels of a screen, and what drawing a sprite pixel, a sprite row and a whole sprite does to
every pixel and to the hit flag. -/

namespace Sys2Proof.Machine

/-! ### Pixels -/

theorem pixel_of_col_ge (f : Screen) (row : Nat) {col : Nat} (h : 64 ≤ col) : f.pixel row col = false := by
  simp [Screen.pixel, BitVec.getMsbD, show ¬ col < 64 by omega]

theorem pixel_of_row_ge (f : Screen) {row : Nat} (h : 32 ≤ row) (col : Nat) : f.pixel row col = false := by
  simp [Screen.pixel, show f[row]? = none from Vector.getElem?_eq_none (by omega)]

@[simp] theorem pixel_blank (row col : Nat) : Screen.blank.pixel row col = false := by
  by_cases h : row < 32
  · simp [Screen.pixel, Screen.blank, h]
  · exact pixel_of_row_ge _ (by omega) col

theorem pixel_eq_getMsbD (f : Screen) {row : Nat} (h : row < 32) (col : Nat) : f.pixel row col = f[row].getMsbD col := by
  simp [Screen.pixel, h]

/-- Two screens with the same pixels are equal. -/
theorem screen_ext {f g : Screen} (h : ∀ row col, row < 32 → col < 64 → f.pixel row col = g.pixel row col) : f = g := by
  apply Vector.ext
  intro row hr
  apply BitVec.eq_of_getMsbD_eq
  intro col hc
  have := h row col hr hc
  rwa [pixel_eq_getMsbD f hr, pixel_eq_getMsbD g hr] at this

theorem pixel_toggle (f : Screen) {y x : Nat} (hy : y < 32) (hx : x < 64) (row col : Nat) :
    (f.toggle y x).pixel row col = (f.pixel row col ^^ decide (row = y ∧ col = x)) := by
  by_cases hc : col < 64
  · by_cases hr : row = y
    · subst hr
      have : (BitVec.twoPow 64 (63 - x)).getMsbD col = decide (col = x) := by
        rw [BitVec.getMsbD_eq_getLsbD]
        simp only [hc, decide_true, Bool.true_and, BitVec.getLsbD_twoPow]
        rw [show decide (63 - x < 64) = true by simp; omega]
        simp; omega
      simp [Screen.toggle, Screen.pixel, hy, this]
    · simp [Screen.toggle, Screen.pixel, hr, Ne.symm hr]
  · rw [pixel_of_col_ge _ _ (by omega), pixel_of_col_ge _ _ (by omega)]
    simp; omega

/-! ### One sprite pixel -/

theorem spriteColumn_lt {p : Config.DrawXPolicy} {x0 c x : Nat} (h : spriteColumn p x0 c = some x) : x < 64 := by
  unfold spriteColumn at h
  split at h
  · cases h; omega
  · cases p
    · simp at h
    · cases h; exact Nat.mod_lt _ (by decide)

/-- The eight pixels of a row fall on different columns, wrapped or not. -/
theorem spriteColumn_inj {p : Config.DrawXPolicy} {x0 c c' x : Nat} (hx : x0 < 64) (hc : c < 8) (hc' : c' < 8)
    (h : spriteColumn p x0 c = some x) (h' : spriteColumn p x0 c' = some x) : c = c' := by
  unfold spriteColumn at h h'
  simp only [Config.fbWidth] at h h'
  split at h <;> split at h' <;> cases p <;> simp at h h' <;> omega

/-- Sprite pixel `c` of a row is set and falls on column `col`. -/
def pixelOn (p : Config.DrawXPolicy) (x0 : Nat) (byte : Byte) (col c : Nat) : Bool :=
  byte.getLsbD (7 - c) && decide (spriteColumn p x0 c = some col)

theorem drawPixel_fst (p : Config.DrawXPolicy) (x0 : Nat) {y : Nat} (byte : Byte) (acc : Canvas) (c : Nat) (hy : y < 32)
    (row col : Nat) :
    (drawPixel p x0 y byte acc c).1.pixel row col =
      (acc.1.pixel row col ^^ (decide (row = y) && pixelOn p x0 byte col c)) := by
  unfold drawPixel pixelOn
  cases byte.getLsbD (7 - c)
  · simp
  · cases h : spriteColumn p x0 c with
    | none => simp
    | some x =>
      simp only [if_true, pixel_toggle _ hy (spriteColumn_lt h)]
      congr 1
      simp [eq_comm]

/-- A set sprite pixel falls on a lit pixel of the row. -/
def pixelHits (f : Screen) (p : Config.DrawXPolicy) (x0 y : Nat) (byte : Byte) (c : Nat) : Bool :=
  byte.getLsbD (7 - c) && (spriteColumn p x0 c).any (fun x => f.pixel y x)

theorem drawPixel_snd (p : Config.DrawXPolicy) (x0 y : Nat) (byte : Byte) (acc : Canvas) (c : Nat) :
    (drawPixel p x0 y byte acc c).2 = (acc.2 || pixelHits acc.1 p x0 y byte c) := by
  unfold drawPixel pixelHits
  cases byte.getLsbD (7 - c) <;> cases spriteColumn p x0 c <;> simp

/-! ### One sprite row -/

theorem foldl_drawPixel_fst (p : Config.DrawXPolicy) {x0 y : Nat} (byte : Byte) (hx : x0 < 64) (hy : y < 32)
    (row col : Nat) (cs : List Nat) (acc : Canvas) (hn : cs.Nodup) (h8 : ∀ c ∈ cs, c < 8) :
    (cs.foldl (drawPixel p x0 y byte) acc).1.pixel row col =
      (acc.1.pixel row col ^^ (decide (row = y) && cs.any (pixelOn p x0 byte col))) := by
  induction cs generalizing acc with
  | nil => simp
  | cons c cs ih =>
    obtain ⟨hc, hn⟩ := List.nodup_cons.mp hn
    rw [List.foldl_cons, ih _ hn (fun d hd => h8 d (List.mem_cons_of_mem _ hd)), drawPixel_fst _ _ _ _ _ hy]
    have : (pixelOn p x0 byte col c && cs.any (pixelOn p x0 byte col)) = false := by
      by_contra hne
      simp only [Bool.not_eq_false, Bool.and_eq_true, List.any_eq_true, pixelOn, decide_eq_true_eq] at hne
      obtain ⟨⟨_, h1⟩, d, hd, _, h2⟩ := hne
      have := spriteColumn_inj hx (h8 c (List.mem_cons_self ..)) (h8 d (List.mem_cons_of_mem _ hd)) h1 h2
      exact hc (this ▸ hd)
    rw [List.any_cons, Bool.xor_assoc]
    congr 1
    cases decide (row = y) <;> revert this <;> cases pixelOn p x0 byte col c <;> simp

theorem foldl_drawPixel_snd (p : Config.DrawXPolicy) {x0 y : Nat} (byte : Byte) (hx : x0 < 64) (hy : y < 32)
    (cs : List Nat) (acc : Canvas) (hn : cs.Nodup) (h8 : ∀ c ∈ cs, c < 8) :
    (cs.foldl (drawPixel p x0 y byte) acc).2 = (acc.2 || cs.any (pixelHits acc.1 p x0 y byte)) := by
  induction cs generalizing acc with
  | nil => simp
  | cons c cs ih =>
    obtain ⟨hc, hn⟩ := List.nodup_cons.mp hn
    rw [List.foldl_cons, ih _ hn (fun d hd => h8 d (List.mem_cons_of_mem _ hd)), drawPixel_snd, List.any_cons,
      Bool.or_assoc]
    have hsame : ∀ d ∈ cs, pixelHits (drawPixel p x0 y byte acc c).1 p x0 y byte d = pixelHits acc.1 p x0 y byte d := by
      intro d hd
      unfold pixelHits
      cases h2 : spriteColumn p x0 d with
      | none => rfl
      | some x =>
        simp only [Option.any_some]
        have : pixelOn p x0 byte x c = false := by
          by_contra hne
          simp only [Bool.not_eq_false, pixelOn, Bool.and_eq_true, decide_eq_true_eq] at hne
          have := spriteColumn_inj hx (h8 c (List.mem_cons_self ..)) (h8 d (List.mem_cons_of_mem _ hd)) hne.2 h2
          exact hc (this ▸ hd)
        rw [drawPixel_fst _ _ _ _ _ hy, this]
        simp
    rw [show cs.any (pixelHits (drawPixel p x0 y byte acc c).1 p x0 y byte) = cs.any (pixelHits acc.1 p x0 y byte) from by
      rw [Bool.eq_iff_iff, List.any_eq_true, List.any_eq_true]
      exact ⟨fun ⟨d, hd, h⟩ => ⟨d, hd, hsame d hd ▸ h⟩, fun ⟨d, hd, h⟩ => ⟨d, hd, (hsame d hd).symm ▸ h⟩⟩]

/-- Some pixel of the sprite row is set and falls on column `col`. -/
def rowOn (p : Config.DrawXPolicy) (x0 : Nat) (byte : Byte) (col : Nat) : Bool :=
  [0, 1, 2, 3, 4, 5, 6, 7].any (pixelOn p x0 byte col)

/-- On the screen, the columns of the raster engine are those of R141. -/
theorem spriteColumn_eq_some {p : Config.DrawXPolicy} {x0 c col : Nat} (hx : x0 < 64) (hc : c < 8) (hcol : col < 64) :
    spriteColumn p x0 c = some col ↔ pixelLiesOn p x0 col c = true := by
  unfold spriteColumn pixelLiesOn
  cases p <;> simp only [Config.fbWidth, decide_eq_true_eq] <;> split <;> simp <;> omega

theorem rowOn_eq (p : Config.DrawXPolicy) {x0 : Nat} (byte : Byte) {col : Nat} (hx : x0 < 64) (hcol : col < 64) :
    rowOn p x0 byte col = (List.range 8).any (fun c => byte.getLsbD (7 - c) && pixelLiesOn p x0 col c) := by
  rw [rowOn, Bool.eq_iff_iff, List.any_eq_true, List.any_eq_true]
  refine exists_congr fun c => and_congr_right fun h => ?_
  have hc : c < 8 := List.mem_range.mp h
  rw [pixelOn, Bool.and_eq_true, Bool.and_eq_true, decide_eq_true_eq, spriteColumn_eq_some hx hc hcol]

/-- What drawing one sprite row does to every pixel: XOR with the row's pixels, on its own screen row only. -/
theorem drawRow_fst (p : Config.DrawXPolicy) {x0 : Nat} (y : Nat) (byte : Byte) (acc : Canvas) (hx : x0 < 64)
    (row col : Nat) :
    (drawRow p x0 y byte acc).1.pixel row col =
      (acc.1.pixel row col ^^ (decide (row = y ∧ row < 32) && rowOn p x0 byte col)) := by
  unfold drawRow
  split
  · rw [show decide (row = y ∧ row < 32) = false by simp; omega]; simp
  · rw [foldl_drawPixel_fst p byte hx (by omega) row col _ acc (by decide) (by decide), rowOn]
    congr 2
    rw [decide_eq_decide]; omega

/-- The hit of one sprite row: some lit pixel of its screen row meets a set pixel of the sprite row. -/
theorem drawRow_snd (p : Config.DrawXPolicy) {x0 : Nat} (y : Nat) (byte : Byte) (acc : Canvas) (hx : x0 < 64) :
    (drawRow p x0 y byte acc).2 = true ↔
      acc.2 = true ∨ ∃ col, acc.1.pixel y col = true ∧ rowOn p x0 byte col = true := by
  unfold drawRow
  split
  · rename_i hy
    constructor
    · exact Or.inl
    · rintro (h | ⟨col, h, _⟩)
      · exact h
      · rw [pixel_of_row_ge _ (by omega)] at h; simp at h
  · rw [foldl_drawPixel_snd p byte hx (by omega) _ acc (by decide) (by decide), Bool.or_eq_true, List.any_eq_true]
    refine or_congr_right ?_
    constructor
    · rintro ⟨c, hc, h⟩
      simp only [pixelHits, Bool.and_eq_true, Option.any_eq_true] at h
      obtain ⟨hb, x, hx', hp⟩ := h
      exact ⟨x, hp, List.any_eq_true.mpr ⟨c, hc, by simp [pixelOn, hb, hx']⟩⟩
    · rintro ⟨col, hp, h⟩
      obtain ⟨c, hc, h⟩ := List.any_eq_true.mp h
      simp only [pixelOn, Bool.and_eq_true, decide_eq_true_eq] at h
      exact ⟨c, hc, by simp [pixelHits, h.1, h.2, hp]⟩

/-! ### A whole sprite -/

/-- The sprite `rows` at (x0, y0) has a set pixel on screen row `row`, column `col`. -/
def rowsOn (p : Config.DrawXPolicy) (x0 y0 : Nat) (rows : List Byte) (row col : Nat) : Bool :=
  decide (y0 ≤ row ∧ row < 32 ∧ row < y0 + rows.length) && rowOn p x0 (rows.getD (row - y0) 0) col

/-- What drawing a sprite does to every pixel. -/
theorem drawRows_fst (p : Config.DrawXPolicy) {x0 : Nat} (hx : x0 < 64) (rows : List Byte) (y : Nat) (acc : Canvas)
    (row col : Nat) :
    (drawRows p x0 y rows acc).1.pixel row col = (acc.1.pixel row col ^^ rowsOn p x0 y rows row col) := by
  induction rows generalizing y acc with
  | nil =>
    rw [show rowsOn p x0 y [] row col = false by simp [rowsOn]; omega]
    simp [drawRows]
  | cons b rows ih =>
    rw [drawRows, ih, drawRow_fst p y b acc hx, Bool.xor_assoc]
    congr 1
    unfold rowsOn
    by_cases h : row = y
    · subst h
      rw [show decide (row + 1 ≤ row ∧ row < 32 ∧ row < row + 1 + rows.length) = false by simp]
      simp
    · rw [show decide (row = y ∧ row < 32) = false by simp [h]]
      by_cases h2 : y + 1 ≤ row
      · rw [show row - y = (row - (y + 1)) + 1 by omega]
        simp only [Bool.false_and, Bool.false_bne, List.getD_cons_succ, List.length_cons]
        congr 1
        rw [decide_eq_decide]; omega
      · rw [show decide (y + 1 ≤ row ∧ row < 32 ∧ row < y + 1 + rows.length) = false by simp; omega,
          show decide (y ≤ row ∧ row < 32 ∧ row < y + (b :: rows).length) = false by simp; omega]
        simp

/-- The hit of a whole sprite: some lit pixel of the screen, as it was, meets a set pixel of the sprite. -/
theorem drawRows_snd (p : Config.DrawXPolicy) {x0 : Nat} (hx : x0 < 64) (rows : List Byte) (y : Nat) (acc : Canvas) :
    (drawRows p x0 y rows acc).2 = true ↔
      acc.2 = true ∨ ∃ row col, acc.1.pixel row col = true ∧ rowsOn p x0 y rows row col = true := by
  induction rows generalizing y acc with
  | nil => simp [drawRows, rowsOn]; intros; omega
  | cons b rows ih =>
    rw [drawRows, ih, drawRow_snd p y b acc hx, or_assoc]
    refine or_congr_right ?_
    constructor
    · rintro (⟨col, h1, h2⟩ | ⟨row, col, h1, h2⟩)
      · have hy : y < 32 := by
          by_contra hn
          rw [pixel_of_row_ge _ (by omega)] at h1; simp at h1
        exact ⟨y, col, h1, by simp [rowsOn, hy, h2]⟩
      · simp only [rowsOn, Bool.and_eq_true, decide_eq_true_eq] at h2
        obtain ⟨⟨h3, h4, h5⟩, h6⟩ := h2
        rw [drawRow_fst p y b acc hx, show decide (row = y ∧ row < 32) = false by simp; omega] at h1
        refine ⟨row, col, by simpa using h1, ?_⟩
        simp only [rowsOn, Bool.and_eq_true, decide_eq_true_eq, List.length_cons]
        refine ⟨by omega, ?_⟩
        rw [show row - y = (row - (y + 1)) + 1 by omega, List.getD_cons_succ]
        exact h6
    · rintro ⟨row, col, h1, h2⟩
      simp only [rowsOn, Bool.and_eq_true, decide_eq_true_eq, List.length_cons] at h2
      obtain ⟨⟨h3, h4, h5⟩, h6⟩ := h2
      by_cases h : row = y
      · subst h
        exact Or.inl ⟨col, h1, by simpa using h6⟩
      · refine Or.inr ⟨row, col, ?_, ?_⟩
        · rw [drawRow_fst p y b acc hx, show decide (row = y ∧ row < 32) = false by simp; omega]
          simpa using h1
        · simp only [rowsOn, Bool.and_eq_true, decide_eq_true_eq]
          refine ⟨by omega, ?_⟩
          rw [show row - y = (row - (y + 1)) + 1 by omega, List.getD_cons_succ] at h6
          exact h6

/-- A sprite has no set pixel beyond the right edge of the screen. -/
theorem rowOn_of_col_ge (p : Config.DrawXPolicy) (x0 : Nat) (byte : Byte) {col : Nat} (h : 64 ≤ col) :
    rowOn p x0 byte col = false := by
  rw [rowOn, List.any_eq_false]
  intro c _ hc
  simp only [pixelOn, Bool.and_eq_true, decide_eq_true_eq] at hc
  have := spriteColumn_lt hc.2
  omega

theorem startColumn_lt (v : Byte) : startColumn v < 64 := Nat.mod_lt _ (by decide)

theorem startRow_lt (v : Byte) : startRow v < 32 := Nat.mod_lt _ (by decide)

end Sys2Proof.Machine
end

