-- ==== Sys2Proof/Laws/Step.lean ====
section
/-! SUPPORT. Laws.Step: everything a `Step` can do, said once; the next instruction; moves and runs. -/

namespace Sys2Proof.Machine

/-! ### Fetch and decode -/

theorem fetch_eq (s : State) :
    s.fetch = if s.pc.toNat + 1 ≤ 0xFFF then some [s.readByte s.pc.toNat, s.readByte (s.pc.toNat + 1)] else none := by
  unfold State.fetch State.memRead
  by_cases h : s.pc.toNat + 1 ≤ 0xFFF
  · rw [if_pos (inRange_fetch.mpr h), if_pos h]; rfl
  · rw [if_neg (fun e => h (inRange_fetch.mp e)), if_neg h]

theorem fetch_of_le {s : State} (h : s.pc.toNat + 1 ≤ 0xFFF) :
    s.fetch = some [s.readByte s.pc.toNat, s.readByte (s.pc.toNat + 1)] := by
  rw [fetch_eq, if_pos h]

theorem fetch_of_gt {s : State} (h : s.pc.toNat + 1 > 0xFFF) : s.fetch = none := by
  rw [fetch_eq, if_neg (by omega)]

/-- A fetch depends on pc and the bytes of memory alone. -/
theorem fetch_congr {s t : State} (hp : t.pc = s.pc) (hm : ∀ a, t.readByte a = s.readByte a) : t.fetch = s.fetch := by
  unfold State.fetch; rw [hp, memRead_congr hm]

theorem nextInstr_congr {s t : State} (hp : t.pc = s.pc) (hm : ∀ a, t.readByte a = s.readByte a) :
    t.nextInstr = s.nextInstr := by
  unfold State.nextInstr; rw [fetch_congr hp hm]

theorem nextInstr_eq_some {s : State} {i : Instr} :
    s.nextInstr = some i ↔
      s.pc.toNat + 1 ≤ 0xFFF ∧ decodeWord (s.readByte s.pc.toNat ++ s.readByte (s.pc.toNat + 1)) = .ok i := by
  unfold State.nextInstr
  rw [fetch_eq]
  split
  · split at * <;> simp_all
  · rename_i bytes h
    split at h
    · cases h
      rw [decode_two]
      cases decodeWord (s.readByte s.pc.toNat ++ s.readByte (s.pc.toNat + 1)) <;> simp_all
    · simp at h

/-! ### Everything a `Step` can do -/

/-- The block is halted, or the fetch leaves memory, or the word is no instruction, or the instruction is executed with
pc past it. -/
inductive Interprets (s : State) : State → Prop where
  | halted : s.fault ≠ none → Interprets s s
  | fetchFault : s.fault = none → s.pc.toNat + 1 > 0xFFF → Interprets s (s.latch .memoryBounds)
  | illegal : s.fault = none → s.pc.toNat + 1 ≤ 0xFFF → s.nextInstr = none →
      Interprets s ((s.setPc (s.pc + 2)).latch .invalidOpcode)
  | executed {t : State} (i : Instr) : s.fault = none → s.nextInstr = some i →
      exec i (s.setPc (s.pc + 2)) = .next t → Interprets s t

theorem interpret_cases {s t : State} (h : s.interpret = .next t) : Interprets s t := by
  unfold State.interpret at h
  split at h
  · rename_i hf
    cases h
    exact .halted (by simp [hf])
  · rename_i hf
    rw [fetch_eq] at h
    by_cases hle : s.pc.toNat + 1 ≤ 0xFFF
    · rw [if_pos hle] at h
      simp only [State.execute, decode_two, advance_eq_setPc] at h
      cases hd : decodeWord (s.readByte s.pc.toNat ++ s.readByte (s.pc.toNat + 1)) with
      | error e =>
        simp only [hd] at h
        cases h
        refine .illegal hf hle ?_
        rw [Option.eq_none_iff_forall_ne_some]
        intro i hi
        rw [nextInstr_eq_some, hd] at hi
        simp at hi
      | ok i =>
        simp only [hd] at h
        exact .executed i hf (nextInstr_eq_some.mpr ⟨hle, hd⟩) h
    · rw [if_neg hle] at h
      cases h
      exact .fetchFault hf (by omega)

theorem interpret_halted {s : State} (h : s.fault ≠ none) : s.interpret = .next s := by
  unfold State.interpret
  split
  · rfl
  · contradiction

theorem interpret_fetchFault {s : State} (hf : s.fault = none) (h : s.pc.toNat + 1 > 0xFFF) :
    s.interpret = .next (s.latch .memoryBounds) := by
  simp [State.interpret, hf, fetch_of_gt h, raise]

theorem interpret_executed {s : State} {i : Instr} (hf : s.fault = none) (h : s.nextInstr = some i) :
    s.interpret = exec i (s.setPc (s.pc + 2)) := by
  obtain ⟨hle, hd⟩ := nextInstr_eq_some.mp h
  simp [State.interpret, hf, fetch_of_le hle, State.execute, decode_two, hd]

theorem interpret_illegal {s : State} {e : DecodeError} (hf : s.fault = none) (h : s.pc.toNat + 1 ≤ 0xFFF)
    (hd : decodeWord (s.readByte s.pc.toNat ++ s.readByte (s.pc.toNat + 1)) = .error e) :
    s.interpret = .next ((s.setPc (s.pc + 2)).latch .invalidOpcode) := by
  simp [State.interpret, hf, fetch_of_le h, State.execute, decode_two, hd, raise]

/-! ### Moves and runs -/

theorem step_nil {s : State} (h : s.schedule = []) : step s = s.interpret := by
  unfold step; rw [h]

theorem step_cons {s : State} {e : Event} {rest : List Event} (h : s.schedule = e :: rest) :
    step s = State.deliver { s with schedule := rest } e := by
  unfold step; rw [h]

@[simp] theorem runEvents_nil (s : State) : runEvents [] s = .next s := rfl

theorem runEvents_cons {s t : State} {e : Event} (es : List Event) (h : s.deliver e = .next t) :
    runEvents (e :: es) s = runEvents es t := by
  rw [runEvents, h]

theorem runEvents_append {s t : State} {es : List Event} (es' : List Event) (h : runEvents es s = .next t) :
    runEvents (es ++ es') s = runEvents es' t := by
  induction es generalizing s with
  | nil => cases h; rfl
  | cons e es ih =>
    simp only [runEvents] at h
    split at h
    · rename_i u hu
      rw [List.cons_append, runEvents_cons _ hu, ih h]
    · simp at h
    · simp at h

end Sys2Proof.Machine
end

