-- ==== Sys2Proof/Laws/Events.lean ====
section
/-! SUPPORT. Laws.Events: what the events other than `Step` do to each field, and the tone and its signals. -/

namespace Sys2Proof.Machine

variable (s : State)

/-! ### Counters -/

@[simp] theorem toNat_countDown (c : Byte) : (countDown c).toNat = c.toNat - 1 := by
  revert c; decide

/-! ### Tick -/

@[simp] theorem tick_dt : s.tick.dt = countDown s.dt := rfl
@[simp] theorem tick_st : s.tick.st = countDown s.st := rfl
@[simp] theorem tick_pc : s.tick.pc = s.pc := rfl
@[simp] theorem tick_mem : s.tick.mem = s.mem := rfl
@[simp] theorem tick_fault : s.tick.fault = s.fault := rfl
@[simp] theorem tick_getV (r : Reg) : s.tick.getV r = s.getV r := rfl
@[simp] theorem tick_nextInstr : s.tick.nextInstr = s.nextInstr := nextInstr_congr rfl (fun _ => rfl)

theorem sameExcept_tick : SameExcept [.dt, .st] s s.tick := by
  constructor
  case dt => intro h; simp at h
  case st => intro h; simp at h
  all_goals intros; rfl

/-! ### Keys and the previous frame -/

@[simp] theorem keyDown_keys (k j : Key) :
    (s.keyDown k).keys.getLsbD j.val = (s.keys.getLsbD j.val || decide (j = k)) := by
  rw [State.keyDown, BitVec.getLsbD_or, BitVec.getLsbD_twoPow]
  simp [Fin.ext_iff, eq_comm]

@[simp] theorem keyUp_keys (k j : Key) :
    (s.keyUp k).keys.getLsbD j.val = (s.keys.getLsbD j.val && !decide (j = k)) := by
  rw [State.keyUp, BitVec.getLsbD_and, BitVec.getLsbD_not, BitVec.getLsbD_twoPow]
  simp [Fin.ext_iff, eq_comm]

@[simp] theorem commitFrame_prev : s.commitFrame.prev = s.fb := rfl

theorem sameExcept_keyDown (k : Key) : SameExcept [.keys] s (s.keyDown k) := by
  constructor
  case keys => intro h; simp at h
  all_goals intros; rfl

theorem sameExcept_keyUp (k : Key) : SameExcept [.keys] s (s.keyUp k) := by
  constructor
  case keys => intro h; simp at h
  all_goals intros; rfl

theorem sameExcept_commitFrame : SameExcept [.prev] s s.commitFrame := by
  constructor
  case prev => intro h; simp at h
  all_goals intros; rfl

/-! ### Load -/

theorem load_of_le {bytes : List Byte} (h : bytes.length ≤ Config.progMax) : s.load bytes = s.loaded bytes :=
  if_neg (by omega)

theorem load_of_gt {bytes : List Byte} (h : bytes.length > Config.progMax) : s.load bytes = s.loadFailed :=
  if_pos h

@[simp] theorem loadFailed_fault : s.loadFailed.fault = some .loadError := rfl
theorem loadFailed_mem : s.loadFailed.mem = unknownMemory s.font s.draws := by rw [State.loadFailed]
@[simp] theorem loadFailed_schedule : s.loadFailed.schedule = s.schedule := by rw [State.loadFailed]
@[simp] theorem loadFailed_settings : s.loadFailed.settings = s.settings := by rw [State.loadFailed]
@[simp] theorem loaded_fault (bytes : List Byte) : (s.loaded bytes).fault = none := rfl
@[simp] theorem loaded_schedule (bytes : List Byte) : (s.loaded bytes).schedule = s.schedule := rfl
@[simp] theorem loaded_prev (bytes : List Byte) : (s.loaded bytes).prev = Screen.blank := rfl

@[simp] theorem loaded_settings (bytes : List Byte) : (s.loaded bytes).settings = s.settings := rfl
@[simp] theorem load_settings (bytes : List Byte) : (s.load bytes).settings = s.settings := by
  unfold State.load; split <;> simp

@[simp] theorem load_schedule (bytes : List Byte) : (s.load bytes).schedule = s.schedule := by
  unfold State.load; split <;> simp

/-- The memory a failed load leaves is in canonical form, whatever its bytes are. -/
theorem wf_unknownMemory (font : Config.Font) (k : Nat) : (unknownMemory font k).wf font = true := by
  unfold unknownMemory
  refine Memory.wf_write Memory.wf_nil _ ?_
  rw [List.length_map, List.length_range, Nat.zero_add]

/-! ### Tone -/

theorem tone_eq_true {s : State} : s.tone = true ↔ s.st ≠ 0 := by simp [State.tone]

theorem tone_eq_false {s : State} : s.tone = false ↔ s.st = 0 := by simp [State.tone]

theorem toneEdge_eq_start {s t : State} : toneEdge s t = some .start ↔ s.st = 0 ∧ t.st ≠ 0 := by
  rw [← tone_eq_false, ← tone_eq_true, toneEdge]
  cases s.tone <;> cases t.tone <;> simp

theorem toneEdge_eq_stop {s t : State} : toneEdge s t = some .stop ↔ s.st ≠ 0 ∧ t.st = 0 := by
  rw [← tone_eq_false, ← tone_eq_true, toneEdge]
  cases s.tone <;> cases t.tone <;> simp

theorem toneEdge_eq_none {s t : State} : toneEdge s t = none ↔ (s.st = 0 ↔ t.st = 0) := by
  rw [← tone_eq_false, ← tone_eq_false, toneEdge]
  cases s.tone <;> cases t.tone <;> simp

/-! ### Signals -/

/-- Every event but a failed load sends the edge of the tone. -/
theorem toneSignal_eq_edge {e : Event} {s t : State} (h : ∀ bytes, e = .load bytes → bytes.length ≤ Config.progMax) :
    toneSignal e s t = toneEdge s t := by
  cases e with
  | load bytes => exact if_neg (by have := h bytes rfl; omega)
  | _ => rfl

/-- A failed load sends nothing. -/
theorem toneSignal_loadFailed {s t : State} {bytes : List Byte} (h : bytes.length > Config.progMax) :
    toneSignal (.load bytes) s t = none := if_pos h

end Sys2Proof.Machine
end

