-- ==== Sys2Proof/Laws/PerInstr.lean ====
section
/-! SUPPORT. Laws.PerInstr: statements about an instruction as syntax, one lemma per constructor. -/

namespace Sys2Proof.Laws

/-! ### EncodedRow: an instruction's word is selected by its own row of the opcode map (30_encoding.md R63). -/

def EncodedRow.Statement (i : Instr) : Prop := i.op.selects (encodeWord i) = true

theorem EncodedRow.cls : EncodedRow.Statement .cls := rfl

theorem EncodedRow.ret : EncodedRow.Statement .ret := rfl

theorem EncodedRow.jp (nnn : Lit12) : EncodedRow.Statement (.jp nnn) :=
  beq_of_eq (and_F000_eq.mpr (fieldF_wordAddr _ nnn))

theorem EncodedRow.call (nnn : Lit12) : EncodedRow.Statement (.call nnn) :=
  beq_of_eq (and_F000_eq.mpr (fieldF_wordAddr _ nnn))

theorem EncodedRow.sei (x : Reg) (nn : Byte) : EncodedRow.Statement (.sei x nn) :=
  beq_of_eq (and_F000_eq.mpr (fieldF_wordRegImm _ x nn))

theorem EncodedRow.snei (x : Reg) (nn : Byte) : EncodedRow.Statement (.snei x nn) :=
  beq_of_eq (and_F000_eq.mpr (fieldF_wordRegImm _ x nn))

theorem EncodedRow.se (x y : Reg) : EncodedRow.Statement (.se x y) :=
  beq_of_eq (wordRegReg_and_F00F _ x y _)

theorem EncodedRow.ldi (x : Reg) (nn : Byte) : EncodedRow.Statement (.ldi x nn) :=
  beq_of_eq (and_F000_eq.mpr (fieldF_wordRegImm _ x nn))

theorem EncodedRow.addi (x : Reg) (nn : Byte) : EncodedRow.Statement (.addi x nn) :=
  beq_of_eq (and_F000_eq.mpr (fieldF_wordRegImm _ x nn))

theorem EncodedRow.mov (x y : Reg) : EncodedRow.Statement (.mov x y) :=
  beq_of_eq (wordRegReg_and_F00F _ x y _)

theorem EncodedRow.or (x y : Reg) : EncodedRow.Statement (.or x y) :=
  beq_of_eq (wordRegReg_and_F00F _ x y _)

theorem EncodedRow.and (x y : Reg) : EncodedRow.Statement (.and x y) :=
  beq_of_eq (wordRegReg_and_F00F _ x y _)

theorem EncodedRow.xor (x y : Reg) : EncodedRow.Statement (.xor x y) :=
  beq_of_eq (wordRegReg_and_F00F _ x y _)

theorem EncodedRow.add (x y : Reg) : EncodedRow.Statement (.add x y) :=
  beq_of_eq (wordRegReg_and_F00F _ x y _)

theorem EncodedRow.sub (x y : Reg) : EncodedRow.Statement (.sub x y) :=
  beq_of_eq (wordRegReg_and_F00F _ x y _)

theorem EncodedRow.shr (x y : Reg) : EncodedRow.Statement (.shr x y) :=
  beq_of_eq (wordRegReg_and_F00F _ x y _)

theorem EncodedRow.subn (x y : Reg) : EncodedRow.Statement (.subn x y) :=
  beq_of_eq (wordRegReg_and_F00F _ x y _)

theorem EncodedRow.shl (x y : Reg) : EncodedRow.Statement (.shl x y) :=
  beq_of_eq (wordRegReg_and_F00F _ x y _)

theorem EncodedRow.sne (x y : Reg) : EncodedRow.Statement (.sne x y) :=
  beq_of_eq (wordRegReg_and_F00F _ x y _)

theorem EncodedRow.lda (nnn : Lit12) : EncodedRow.Statement (.lda nnn) :=
  beq_of_eq (and_F000_eq.mpr (fieldF_wordAddr _ nnn))

theorem EncodedRow.jp0 (nnn : Lit12) : EncodedRow.Statement (.jp0 nnn) :=
  beq_of_eq (and_F000_eq.mpr (fieldF_wordAddr _ nnn))

theorem EncodedRow.rnd (x : Reg) (nn : Byte) : EncodedRow.Statement (.rnd x nn) :=
  beq_of_eq (and_F000_eq.mpr (fieldF_wordRegImm _ x nn))

theorem EncodedRow.drw (x y : Reg) (n : Rows) : EncodedRow.Statement (.drw x y n) :=
  beq_of_eq (and_F000_eq.mpr (fieldF_wordRegReg _ x y _))

theorem EncodedRow.skp (x : Reg) : EncodedRow.Statement (.skp x) :=
  beq_of_eq (wordRegImm_and_F0FF _ x _)

theorem EncodedRow.sknp (x : Reg) : EncodedRow.Statement (.sknp x) :=
  beq_of_eq (wordRegImm_and_F0FF _ x _)

theorem EncodedRow.gdt (x : Reg) : EncodedRow.Statement (.gdt x) :=
  beq_of_eq (wordRegImm_and_F0FF _ x _)

theorem EncodedRow.wkey (x : Reg) : EncodedRow.Statement (.wkey x) :=
  beq_of_eq (wordRegImm_and_F0FF _ x _)

theorem EncodedRow.sdt (x : Reg) : EncodedRow.Statement (.sdt x) :=
  beq_of_eq (wordRegImm_and_F0FF _ x _)

theorem EncodedRow.sst (x : Reg) : EncodedRow.Statement (.sst x) :=
  beq_of_eq (wordRegImm_and_F0FF _ x _)

theorem EncodedRow.adda (x : Reg) : EncodedRow.Statement (.adda x) :=
  beq_of_eq (wordRegImm_and_F0FF _ x _)

theorem EncodedRow.font (x : Reg) : EncodedRow.Statement (.font x) :=
  beq_of_eq (wordRegImm_and_F0FF _ x _)

theorem EncodedRow.bcd (x : Reg) : EncodedRow.Statement (.bcd x) :=
  beq_of_eq (wordRegImm_and_F0FF _ x _)

theorem EncodedRow.stm (x : Reg) : EncodedRow.Statement (.stm x) :=
  beq_of_eq (wordRegImm_and_F0FF _ x _)

theorem EncodedRow.ldm (x : Reg) : EncodedRow.Statement (.ldm x) :=
  beq_of_eq (wordRegImm_and_F0FF _ x _)

end Sys2Proof.Laws
end

