-- ==== Sys2Proof/Tests/Slice0.lean ====
section
/-! SUPPORT. Tests.Slice0: ill-formed lines refused, words written out from the encoding, one step of each instruction
with the results of 95_test_vectors.md, and for each obligation with hypotheses a state that meets them. -/

open Sys2Proof Sys2Proof.Machine

namespace Sys2Proof.Tests

-- The tests are elaborated one after another: hundreds of small `decide`s at once open more threads than a check allows.
set_option Elab.async false

/-! ### Well-formed lines: each check refuses an ill-formed line (R61, R65, R71) -/

theorem test_line_accepted : (Line.mk .drw [.reg 15, .reg 15, .num 15]).wellFormed = true := by decide

theorem test_line_refuses_register_16 : (Line.mk .mov [.reg 1, .reg 16]).wellFormed = false := by decide

theorem test_line_refuses_address_0x1000 : (Line.mk .jp [.num 0x1000]).wellFormed = false := by decide

theorem test_line_refuses_literal_0x100 : (Line.mk .ldi [.reg 0, .num 0x100]).wellFormed = false := by decide

theorem test_line_refuses_row_count_16 : (Line.mk .drw [.reg 1, .reg 2, .num 16]).wellFormed = false := by decide

theorem test_line_refuses_number_for_register : (Line.mk .skp [.num 1]).wellFormed = false := by decide

theorem test_line_refuses_register_for_number : (Line.mk .lda [.reg 1]).wellFormed = false := by decide

theorem test_line_refuses_register_for_literal : (Line.mk .addi [.reg 1, .reg 2]).wellFormed = false := by decide

theorem test_line_refuses_register_for_row_count :
    (Line.mk .drw [.reg 1, .reg 2, .reg 3]).wellFormed = false := by decide

theorem test_line_refuses_missing_operand : (Line.mk .add [.reg 1]).wellFormed = false := by decide

theorem test_line_refuses_extra_operand : (Line.mk .cls [.num 0]).wellFormed = false := by decide

theorem test_refused_line_assembles_to_nothing : (Line.mk .jp [.num 0x1000]).assemble = none := by decide

/-- `SHR Vx` with one operand is written for Y = 0 (R71). -/
theorem test_short_shift_is_written_for_V0 : (Line.mk .shr [.reg 3]).assemble = some (.shr 3 0) := by decide

/-! ### Decoding: a word of every constructor, its bits written out from R62 and R63 -/

/-- A word by its four nibbles, bits 15..12 first. -/
def bits (a b c d : BitVec 4) : Word := a ++ b ++ c ++ d

theorem test_decode_fixed_and_addr :
    decodeWord (bits 0b0000 0b0000 0b1110 0b0000) = .ok .cls ∧
    decodeWord (bits 0b0000 0b0000 0b1110 0b1110) = .ok .ret ∧
    decodeWord (bits 0b0001 0b1010 0b1011 0b1100) = .ok (.jp 0xABC) ∧
    decodeWord (bits 0b0010 0b0010 0b0000 0b1110) = .ok (.call 0x20E) ∧
    decodeWord (bits 0b1010 0b0011 0b0000 0b0001) = .ok (.lda 0x301) ∧
    decodeWord (bits 0b1011 0b1111 0b1110 0b1101) = .ok (.jp0 0xFED) := by decide

theorem test_decode_reg_imm :
    decodeWord (bits 0b0011 0b1111 0b0000 0b0001) = .ok (.sei 0xF 0x01) ∧
    decodeWord (bits 0b0100 0b0011 0b0001 0b0001) = .ok (.snei 3 0x11) ∧
    decodeWord (bits 0b0110 0b1100 0b0111 0b1111) = .ok (.ldi 0xC 0x7F) ∧
    decodeWord (bits 0b0111 0b0000 0b1111 0b1110) = .ok (.addi 0 0xFE) ∧
    decodeWord (bits 0b1100 0b0001 0b0000 0b1111) = .ok (.rnd 1 0x0F) := by decide

theorem test_decode_reg_reg :
    decodeWord (bits 0b0101 0b0001 0b0010 0b0000) = .ok (.se 1 2) ∧
    decodeWord (bits 0b1001 0b0001 0b0010 0b0000) = .ok (.sne 1 2) ∧
    decodeWord (bits 0b1000 0b0001 0b0010 0b0000) = .ok (.mov 1 2) ∧
    decodeWord (bits 0b1000 0b0001 0b0010 0b0001) = .ok (.or 1 2) ∧
    decodeWord (bits 0b1000 0b0001 0b0010 0b0010) = .ok (.and 1 2) ∧
    decodeWord (bits 0b1000 0b0001 0b0010 0b0011) = .ok (.xor 1 2) ∧
    decodeWord (bits 0b1000 0b1010 0b1011 0b0100) = .ok (.add 0xA 0xB) ∧
    decodeWord (bits 0b1000 0b0001 0b0010 0b0101) = .ok (.sub 1 2) ∧
    decodeWord (bits 0b1000 0b0001 0b0010 0b0110) = .ok (.shr 1 2) ∧
    decodeWord (bits 0b1000 0b0001 0b0010 0b0111) = .ok (.subn 1 2) ∧
    decodeWord (bits 0b1000 0b0001 0b0010 0b1110) = .ok (.shl 1 2) ∧
    decodeWord (bits 0b1101 0b0001 0b0010 0b0101) = .ok (.drw 1 2 5) := by decide

theorem test_decode_reg :
    decodeWord (bits 0b1110 0b0001 0b1001 0b1110) = .ok (.skp 1) ∧
    decodeWord (bits 0b1110 0b0001 0b1010 0b0001) = .ok (.sknp 1) ∧
    decodeWord (bits 0b1111 0b0001 0b0000 0b0111) = .ok (.gdt 1) ∧
    decodeWord (bits 0b1111 0b0001 0b0000 0b1010) = .ok (.wkey 1) ∧
    decodeWord (bits 0b1111 0b0001 0b0001 0b0101) = .ok (.sdt 1) ∧
    decodeWord (bits 0b1111 0b0001 0b0001 0b1000) = .ok (.sst 1) ∧
    decodeWord (bits 0b1111 0b0001 0b0001 0b1110) = .ok (.adda 1) ∧
    decodeWord (bits 0b1111 0b0001 0b0010 0b1001) = .ok (.font 1) ∧
    decodeWord (bits 0b1111 0b0001 0b0011 0b0011) = .ok (.bcd 1) ∧
    decodeWord (bits 0b1111 0b0001 0b0101 0b0101) = .ok (.stm 1) ∧
    decodeWord (bits 0b1111 0b0001 0b0110 0b0101) = .ok (.ldm 1) := by decide

/-- The encodings written out in the same words. -/
theorem test_encode :
    encodeWord (.drw 1 2 5) = 0xD125 ∧ encodeWord (.shl 1 2) = 0x812E ∧ encodeWord (.jp 0xABC) = 0x1ABC ∧
    encodeWord (.sknp 1) = 0xE1A1 ∧ encodeWord (.ldm 0xF) = 0xFF65 ∧ encode (.ldi 0xC 0x7F) = [0x6C, 0x7F] := by decide

/-- Words refused, by their reason (R68, 95_test_vectors.md 2.1). -/
theorem test_decode_refuses :
    decodeWord 0x0000 = .error (.noMember 0x0) ∧ decodeWord 0x01E0 = .error (.noMember 0x0) ∧
    decodeWord 0x5121 = .error (.malformedSkip 0x5) ∧ decodeWord 0x912F = .error (.malformedSkip 0x9) ∧
    decodeWord 0x8128 = .error (.noMember 0x8) ∧ decodeWord 0x812F = .error (.noMember 0x8) ∧
    decodeWord 0xE19F = .error (.noMember 0xE) ∧ decodeWord 0xF185 = .error (.noMember 0xF) ∧
    decodeWord 0xFFFF = .error (.noMember 0xF) ∧ decode [0x00] = .error .truncated := by decide

/-- The host's two functions: bit 0 of the table's word is the least significant bit of the opcode. -/
theorem test_decodeTableWord :
    decodeTableWord 16 0xD125 = some (.drw 1 2 5) ∧ decodeTableWord 16 0x5121 = none := by decide

/-! ### One step of each instruction -/

/-- The reset state with some registers set. -/
def regs (vs : List (Reg × Byte)) : State := vs.foldl (fun s v => s.setV v.1 v.2) State.reset

/-- The state after one step that runs the opcode `w`, placed where `s` fetches. -/
def ran (w : Nat) (s : State) : Option State :=
  match step (s.withFetchWord 16 w) with
  | .next t => some t
  | .fault _ => none
  | .refused _ => none

/-- A register and VF after the step. -/
def vf (r : Reg) (w : Nat) (s : State) : Option (Byte × Byte) := (ran w s).map (fun t => (t.getV r, t.getV VF))

/-- pc and the fault latch after the step. -/
def pcFault (w : Nat) (s : State) : Option (Word × Option Fault) := (ran w s).map (fun t => (t.pc, t.fault))

/-- Some bytes of memory and the fault latch after the step. -/
def bytesFault (w a n : Nat) (s : State) : Option (List Byte × Option Fault) :=
  (ran w s).map (fun t => (t.readBytes a n, t.fault))

/-- The reset state with two sprite rows FF, 81 at 0x300, I there, and some registers set (2.6). -/
def sprite (vs : List (Reg × Byte)) : State := ((regs vs).setI 0x300).memWrite 0x300 [0xFF, 0x81] |>.getD State.reset

/-- Some pixels of one row and VF after the step. -/
def pixelsVF (w row : Nat) (cols : List Nat) (s : State) : Option (List Bool × Byte) :=
  (ran w s).map (fun t => (cols.map (t.fb.pixel row), t.getV VF))

theorem test_cls_keeps_VF : pixelsVF 0x00E0 3 [5, 6] { regs [(VF, 1)] with fb := Screen.blank.toggle 3 5 } =
    some ([false, false], 1) := by decide +kernel

theorem test_ret_pops :
    (ran 0x00EE { State.reset with sp := 1, stack := State.reset.stack.set 0 0x20A }).map (fun t => (t.pc, t.sp)) =
      some (0x20A, 0) := by decide +kernel

theorem test_ret_empty : pcFault 0x00EE State.reset = some (0x202, some .stackUnderflow) := by decide +kernel

theorem test_jp_odd : pcFault 0x1201 State.reset = some (0x201, none) := by decide +kernel

theorem test_call_deepest :
    (ran 0x220E { State.reset with pc := 0x208, sp := 15 }).map (fun t => (t.pc, t.sp, t.stackEntry 15)) =
      some (0x20E, 16, 0x20A) := by decide +kernel

theorem test_call_full :
    pcFault 0x220E { State.reset with pc := 0x208, sp := 16 } = some (0x20A, some .stackOverflow) := by decide +kernel

theorem test_sei_at_end : pcFault 0x3000 { State.reset with pc := 0xFFC } = some (0x1000, none) := by decide +kernel

theorem test_sei_not_equal : pcFault 0x3000 (regs [(0, 1)]) = some (0x202, none) := by decide +kernel

theorem test_snei_skips : pcFault 0x4311 (regs [(3, 0x10)]) = some (0x204, none) := by decide +kernel

theorem test_snei_equal : pcFault 0x4310 (regs [(3, 0x10)]) = some (0x202, none) := by decide +kernel

theorem test_se_skips : pcFault 0x5120 (regs [(1, 7), (2, 7)]) = some (0x204, none) := by decide +kernel

theorem test_se_malformed : pcFault 0x5121 State.reset = some (0x202, some .invalidOpcode) := by decide +kernel

theorem test_sne_skips : pcFault 0x9120 (regs [(1, 7), (2, 8)]) = some (0x204, none) := by decide +kernel

theorem test_sne_same_register : pcFault 0x9110 State.reset = some (0x202, none) := by decide +kernel

theorem test_ldi_VF : vf VF 0x6FFF State.reset = some (0xFF, 0xFF) := by decide +kernel

theorem test_addi_wraps_without_flag : vf 0 0x7001 (regs [(0, 0xFF)]) = some (0, 0) := by decide +kernel

theorem test_mov_from_VF : vf 1 0x81F0 (regs [(VF, 0x77)]) = some (0x77, 0x77) := by decide +kernel

theorem test_or_zeroes_VF : vf 1 0x8121 (regs [(1, 0x0F), (2, 0xF0), (VF, 1)]) = some (0xFF, 0) := by decide +kernel

theorem test_or_into_VF : vf VF 0x8F21 (regs [(VF, 0x0F), (2, 0xF0)]) = some (0, 0) := by decide +kernel

theorem test_and_from_VF : vf 1 0x81F2 (regs [(1, 0xFF), (VF, 3)]) = some (3, 0) := by decide +kernel

theorem test_and_zeroes_VF : vf 1 0x8122 (regs [(1, 0x3C), (2, 0x0F), (VF, 1)]) = some (0x0C, 0) := by decide +kernel

theorem test_xor_zeroes_VF : vf 1 0x8123 (regs [(1, 0xFF), (2, 0x0F), (VF, 1)]) = some (0xF0, 0) := by decide +kernel

theorem test_xor_same_register : vf 1 0x8113 (regs [(1, 0xAA), (VF, 1)]) = some (0, 0) := by decide +kernel

theorem test_add_carries : vf 1 0x8124 (regs [(1, 0xF0), (2, 0x20)]) = some (0x10, 1) := by decide +kernel

theorem test_add_into_VF : vf VF 0x8F24 (regs [(VF, 0xFF), (2, 2)]) = some (1, 1) := by decide +kernel

theorem test_sub_equal : vf 1 0x8125 (regs [(1, 5), (2, 5)]) = some (0, 0) := by decide +kernel

theorem test_sub_VF_operand : vf 1 0x81F5 (regs [(1, 5), (VF, 3)]) = some (4, 1) := by decide +kernel

theorem test_shr_ignores_Y : vf 1 0x8126 (regs [(1, 0xFE), (2, 0x55)]) = some (0x7F, 0) := by decide +kernel

theorem test_shr_VF : vf VF 0x8F26 (regs [(VF, 0xFF)]) = some (0, 0) := by decide +kernel

theorem test_subn_less : vf 1 0x8127 (regs [(1, 5), (2, 3)]) = some (0xFE, 0) := by decide +kernel

theorem test_subn_VF_destination : vf VF 0x8F27 (regs [(VF, 3), (2, 5)]) = some (4, 4) := by decide +kernel

theorem test_shl_lost_bit : vf 1 0x812E (regs [(1, 0x81)]) = some (2, 1) := by decide +kernel

theorem test_shl_VF : vf VF 0x8F2E (regs [(VF, 0x80)]) = some (2, 2) := by decide +kernel

theorem test_lda : (ran 0xAFFF State.reset).map State.I = some 0x0FFF := by decide +kernel

theorem test_jp0_uses_V0 : pcFault 0xB2FF (regs [(0, 1), (2, 0x80)]) = some (0x300, none) := by decide +kernel

theorem test_jp0_top : pcFault 0xBFFF (regs [(0, 0xFF)]) = some (0x10FE, none) := by decide +kernel

/-- The byte drawn is a free value; the stream moves on and VF stays. -/
theorem test_rnd_moves_stream :
    (ran 0xC10F (regs [(VF, 7)])).map (fun t => (t.getV VF, t.draws)) = some (7, 1) := by decide +kernel

/-- With no bit allowed the result is 0, whatever byte is drawn. -/
theorem test_rnd_masked_out : ∃ t, exec (.rnd 1 0x00) (regs [(1, 0x55)]) = .next t ∧ t.getV 1 = 0 :=
  ⟨_, rfl, by simp⟩

theorem test_drw_clips_right : pixelsVF 0xD121 0 [59, 60, 63, 0] (sprite [(1, 0x3C)]) =
    some ([false, true, true, false], 0) := by decide +kernel

theorem test_drw_wraps_right : pixelsVF 0xD121 0 [59, 60, 63, 0, 3, 4]
    { sprite [(1, 0x3C)] with settings := { defaultSettings with drawXPolicy := .wrap } } =
      some ([false, true, true, true, true, false], 0) := by decide +kernel

theorem test_drw_collides :
    pixelsVF 0xD121 0 [0, 6, 7] { sprite [] with fb := Screen.blank.toggle 0 7 } = some ([true, true, false], 1) := by
  decide +kernel

theorem test_skp_down : pcFault 0xE19E { regs [(1, 0xF)] with keys := 0x8000 } = some (0x204, none) := by decide +kernel

theorem test_skp_no_key : pcFault 0xE19E (regs [(1, 0x10)]) = some (0x202, some .invalidOpcode) := by decide +kernel

theorem test_sknp_up : pcFault 0xE1A1 (regs [(1, 5)]) = some (0x204, none) := by decide +kernel

theorem test_sknp_no_key : pcFault 0xE1A1 (regs [(1, 0xFF)]) = some (0x202, some .invalidOpcode) := by decide +kernel

theorem test_gdt : vf 1 0xF107 { State.reset with dt := 0x2A } = some (0x2A, 0) := by decide +kernel

theorem test_wkey_lowest :
    (ran 0xF30A { regs [(3, 0xEE)] with keys := 0x0090 }).map (fun t => (t.getV 3, t.pc)) = some (4, 0x202) := by
  decide +kernel

theorem test_wkey_waits :
    (ran 0xF30A (regs [(3, 0xEE)])).map (fun t => (t.getV 3, t.pc)) = some (0xEE, 0x200) := by decide +kernel

theorem test_sdt : (ran 0xF115 (regs [(1, 0x3C)])).map (fun t => (t.dt, t.st)) = some (0x3C, 0) := by decide +kernel

theorem test_sst : (ran 0xF118 (regs [(1, 3)])).map (fun t => (t.dt, t.st)) = some (0, 3) := by decide +kernel

theorem test_sst_zero_stops_tone :
    (ran 0xF118 { State.reset with st := 5 }).map (toneSignal .step { State.reset with st := 5 }) = some (some .stop) := by
  decide +kernel

theorem test_adda_overflow :
    (ran 0xF11E ((regs [(1, 0x10)]).setI 0xFF0)).map (fun t => (t.I, t.getV VF)) = some (0x1000, 1) := by decide +kernel

/-- The open parameters are settings of the machine (R7): without overflow VF stays where FX1E_ELSE is unchanged. -/
theorem test_adda_unchanged :
    vf VF 0xF11E { regs [(1, 1), (VF, 7)] with settings := { defaultSettings with fx1eElse := .unchanged } } =
      some (7, 7) := by decide +kernel

theorem test_adda_VF :
    (ran 0xFF1E ((regs [(VF, 4)]).setI 0xFFB)).map (fun t => (t.I, t.getV VF)) = some (0xFFF, 0) := by decide +kernel

theorem test_font_low_nibble : (ran 0xF029 (regs [(0, 0x1A)])).map State.I = some 0x0082 := by decide +kernel

theorem test_bcd_at_top : bytesFault 0xF033 0xFFD 3 ((regs [(0, 0x7B)]).setI 0xFFD) = some ([1, 2, 3], none) := by
  decide +kernel

theorem test_bcd_beyond :
    bytesFault 0xF033 0xFFE 2 ((regs [(0, 0x7B)]).setI 0xFFE) = some ([0, 0], some .memoryBounds) := by decide +kernel

theorem test_stm_count : bytesFault 0xF255 0x400 4 ((regs [(0, 0x11), (1, 0x22), (2, 0x33), (3, 0x44)]).setI 0x400) =
    some ([0x11, 0x22, 0x33, 0], none) := by decide +kernel

theorem test_stm_beyond_stores_nothing :
    bytesFault 0xFF55 0xFF1 2 ((regs [(0, 5), (1, 6)]).setI 0xFF1) = some ([0, 0], some .memoryBounds) := by
  decide +kernel

theorem test_ldm_font :
    (ran 0xF465 (State.reset.setI 0x050)).map (fun t => ([t.getV 0, t.getV 1, t.getV 4, t.getV 5], t.I)) =
      some ([0xF0, 0x90, 0xF0, 0], 0x050) := by decide +kernel

theorem test_ldm_beyond_loads_nothing :
    (ran 0xF265 ((regs [(0, 1), (1, 2)]).setI 0xFFE)).map (fun t => ([t.getV 0, t.getV 1], t.fault)) =
      some ([1, 2], some .memoryBounds) := by decide +kernel

/-! ### Step, events, load -/

theorem test_fetch_beyond : pcFault 0 State.reset = some (0x202, some .invalidOpcode) ∧
    (match step { State.reset with pc := 0xFFF } with | .next t => some (t.pc, t.fault) | _ => none) =
      some (0xFFF, some .memoryBounds) := by decide +kernel

theorem test_tick : ({ State.reset with dt := 5, st := 1 } : State).tick.dt = 4 ∧
    toneSignal .tick { State.reset with st := 1 } (State.tick { State.reset with st := 1 }) = some .stop ∧
    State.reset.tick = State.reset := by decide +kernel

theorem test_keys : ((State.reset.keyDown 0).keyDown 15).keys = 0x8001 ∧
    ((State.reset.keyDown 3).keyUp 3).keys = 0 := by decide

theorem test_load : (State.reset.loaded [0x60, 0x05]).readBytes 0x1FF 4 = [0, 0x60, 0x05, 0] ∧
    (State.reset.loaded [0x60, 0x05]).readBytes 0x09F 2 = [0x80, 0] ∧
    (State.reset.loaded [0x60, 0x05]).readBytes 0x04F 2 = [0, 0xF0] := by decide +kernel

/-- A machine with another font: its bytes at 0x050 to 0x09F after reset and after a load, nothing of it elsewhere. -/
theorem test_other_font :
    (State.resetWith { defaultSettings with font := Vector.replicate 80 0xAA }).readBytes 0x04F 3 = [0, 0xAA, 0xAA] ∧
    (State.loaded { State.reset with settings := { defaultSettings with font := Vector.replicate 80 0xAA } }
      [0x60]).readBytes 0x09E 3 = [0xAA, 0xAA, 0] := by decide +kernel

/-- A failed load sends no signal; a load that ends a tone sends a stop. -/
theorem test_load_signals (s : State) :
    toneSignal (.load (List.replicate 3585 0)) s s.loadFailed = none ∧
    toneSignal (.load []) { State.reset with st := 1 } (State.reset.load []) = some .stop :=
  ⟨toneSignal_loadFailed (by rw [List.length_replicate]; decide), by decide +kernel⟩

theorem test_commit : ({ State.reset with fb := Screen.blank.toggle 3 5 } : State).hasChanged = true ∧
    ({ State.reset with fb := Screen.blank.toggle 3 5 } : State).commitFrame.hasChanged = false := by decide +kernel

/-- A schedule delivers its events first. -/
theorem test_schedule_first :
    (match step { State.reset with schedule := [.keyDown 7] } with
      | .next t => some (t.keys, t.pc, t.schedule)
      | _ => none) = some (0x0080, 0x200, []) := by decide +kernel

/-! ### Witnesses: for each obligation with hypotheses, a state and operands that meet all of them together, and for
each clause the boundary of its range -/

/-- The reset state with an opcode at a chosen pc. -/
def placed (pc : Word) (w : Nat) : State := State.withFetchWord { State.reset with pc := pc } 16 w

theorem witness_EncodeAndDecodeAreInverse : decodeWord 0x812E = .ok (.shl 1 2) := by decide

theorem witness_OpcodeMapSelectsDecodedRow : Op.shl.selects 0x812E = true ∧ Op.cls.selects 0x00E0 = true := by decide

theorem witness_StepRunsDecodedInstruction :
    ∃ (s : State) (i : Instr), s.pc = 0xFFE ∧ s.schedule = [] ∧ s.fault = none ∧ s.pc.toNat + 1 ≤ 0xFFF ∧
      decodeWord (s.readByte s.pc.toNat ++ s.readByte (s.pc.toNat + 1)) = .ok i :=
  ⟨placed 0xFFE 0x6005, .ldi 0 5, by decide +kernel⟩

theorem witness_FetchBeyondMemoryFaults :
    ∃ s : State, s.pc = 0xFFF ∧ s.schedule = [] ∧ s.fault = none ∧ s.pc.toNat + 1 > 0xFFF :=
  ⟨{ State.reset with pc := 0xFFF }, by decide⟩

theorem witness_IllegalWordRaisesInvalidOpcode :
    ∃ (s : State) (e : DecodeError), s.pc = 0xFFE ∧ s.schedule = [] ∧ s.fault = none ∧ s.pc.toNat + 1 ≤ 0xFFF ∧
      decodeWord (s.readByte s.pc.toNat ++ s.readByte (s.pc.toNat + 1)) = .error e :=
  ⟨placed 0xFFE 0x5121, .malformedSkip 5, by decide +kernel⟩

theorem witness_HaltedBlockIgnoresStep : ∃ s : State, s.schedule = [] ∧ s.fault ≠ none :=
  ⟨State.reset.latch .memoryBounds, by decide⟩

theorem witness_FaultingStepWritesOnlyPcAndLatch :
    (∃ s t : State, s.pc = 0xFFF ∧ s.schedule = [] ∧ s.fault = none ∧ step s = .next t ∧ t.fault ≠ none) ∧
    ∃ s t : State, s.pc = 0x200 ∧ s.schedule = [] ∧ s.fault = none ∧ step s = .next t ∧ t.fault ≠ none :=
  ⟨⟨{ State.reset with pc := 0xFFF }, _, rfl, rfl, rfl, rfl, by decide⟩,
    ⟨State.reset, _, rfl, rfl, rfl, rfl, by decide⟩⟩

/-- A state per clause: CALL with 16 and with 15 entries, RET with none, SKP of 0x10, BCD at 0xFFE. -/
theorem witness_StepFaultConditions :
    (∃ s t : State, s.sp = 16 ∧ s.schedule = [] ∧ s.fault = none ∧ step s = .next t ∧ t.fault = some .stackOverflow) ∧
    (∃ s t : State, s.sp = 15 ∧ s.schedule = [] ∧ s.fault = none ∧ step s = .next t ∧ t.fault = none) ∧
    (∃ s t : State, s.sp = 0 ∧ s.schedule = [] ∧ s.fault = none ∧ step s = .next t ∧ t.fault = some .stackUnderflow) ∧
    (∃ s t : State, s.getV 1 = 0x10 ∧ s.schedule = [] ∧ s.fault = none ∧ step s = .next t ∧
      t.fault = some .invalidOpcode) ∧
    ∃ s t : State, s.I = 0xFFE ∧ s.schedule = [] ∧ s.fault = none ∧ step s = .next t ∧ t.fault = some .memoryBounds :=
  ⟨⟨{ placed 0x200 0x2300 with sp := 16 }, _, rfl, rfl, rfl, rfl, by decide +kernel⟩,
    ⟨{ placed 0x200 0x2300 with sp := 15 }, _, rfl, rfl, rfl, rfl, by decide +kernel⟩,
    ⟨placed 0x200 0x00EE, _, rfl, rfl, rfl, rfl, by decide +kernel⟩,
    ⟨(placed 0x200 0xE19E).setV 1 0x10, _, by decide, rfl, rfl, rfl, by decide +kernel⟩,
    ⟨(placed 0x200 0xF033).setI 0xFFE, _, rfl, rfl, rfl, rfl, by decide +kernel⟩⟩

theorem witness_InstructionWritesOnlyItsParts : ∃ t, exec (.bcd 1) (State.reset.setI 0x300) = .next t := ⟨_, rfl⟩

theorem witness_StepLeavesOtherAgentsState : ∃ t, State.reset.schedule = [] ∧ step State.reset = .next t :=
  ⟨_, rfl, rfl⟩

/-- The family, the jump to 0xFFF, and a jump to itself at 0x200. -/
theorem witness_JumpSetsProgramCounter :
    fieldF 0x1FFF = 0x1 ∧
    (∃ t, exec (.jp 0xFFF) State.reset = .next t ∧ t.schedule = [] ∧ t.fault = none) ∧
    ∃ s : State, s.schedule = [] ∧ s.fault = none ∧ s.nextInstr = some (.jp 0x200) ∧ s.pc.toNat = 0x200 :=
  ⟨by decide, ⟨_, rfl, rfl, rfl⟩, placed 0x200 0x1200, by decide +kernel⟩

theorem witness_CallPushesReturnAddress :
    fieldF 0x220E = 0x2 ∧ (∃ s : State, s.sp.val = 15 ∧ s.sp.val < 16) ∧ ∃ s : State, s.sp.val = 16 :=
  ⟨by decide, ⟨{ State.reset with sp := 15 }, by decide⟩, { State.reset with sp := 16 }, by decide⟩

theorem witness_ReturnPopsStack : (∃ s : State, s.sp.val = 1 ∧ s.sp.val > 0) ∧ ∃ s : State, s.sp.val = 0 :=
  ⟨⟨{ State.reset with sp := 1 }, by decide⟩, State.reset, by decide⟩

/-- A call at depth 15, and a later state that has the stack it left. -/
theorem witness_ReturnResumesAfterCall :
    ∃ s t u : State, s.sp.val < 16 ∧ exec (.call 0x300) s = .next t ∧ u.stack = t.stack ∧ u.sp = t.sp ∧ u ≠ t :=
  ⟨{ State.reset with sp := 15 }, _, { State.reset with sp := 16, stack := State.reset.stack.set 15 0x200 },
    by decide, rfl, rfl, rfl, by decide +kernel⟩

theorem witness_ImmediateSkips : fieldF 0x3F01 = 0x3 ∧ fieldF 0x4311 = 0x4 := by decide

theorem witness_RegisterSkips :
    (fieldF 0x5120 = 0x5 ∧ fieldN 0x5120 = 0) ∧ (fieldF 0x9120 = 0x9 ∧ fieldN 0x9120 = 0) ∧
    (∃ s : State, fieldF 0x5121 = 0x5 ∧ fieldN 0x5121 ≠ 0 ∧ s.schedule = [] ∧ s.fault = none ∧
      s.fetch = some (wordBytes 0x5121)) ∧
    ∃ s : State, fieldF 0x912F = 0x9 ∧ fieldN 0x912F ≠ 0 ∧ s.schedule = [] ∧ s.fault = none ∧
      s.fetch = some (wordBytes 0x912F) :=
  ⟨by decide, by decide, ⟨placed 0x200 0x5121, by decide +kernel⟩, placed 0xFFE 0x912F, by decide +kernel⟩

theorem witness_LoadMoveAndAddImmediate :
    fieldF 0x6005 = 0x6 ∧ fieldF 0x7003 = 0x7 ∧ (0x8FF0 : Word) &&& 0xF00F = 0x8000 := by decide

theorem witness_LogicResultsZeroFlag :
    (0x8FF1 : Word) &&& 0xF00F = 0x8001 ∧ (0x8FF2 : Word) &&& 0xF00F = 0x8002 ∧ (0x8FF3 : Word) &&& 0xF00F = 0x8003 ∧
    (1 : Reg) ≠ VF := by decide

theorem witness_AddSetsCarry : (0x8AB4 : Word) &&& 0xF00F = 0x8004 ∧ (14 : Reg) ≠ VF := by decide

theorem witness_SubtractSetsStrictFlag : ∃ x y : Reg, x ≠ VF ∧ y ≠ VF := ⟨14, 0, by decide⟩

theorem witness_ShiftSetsLostBit : ∃ x : Reg, x ≠ VF := ⟨14, by decide⟩

theorem witness_FlagRegisterAsOperand : ∃ x y : Reg, x ≠ VF ∧ y ≠ VF := ⟨0, 14, by decide⟩

theorem witness_LoadIndexSetsI : fieldF 0xAFFF = 0xA := by decide

theorem witness_FontAddressOfLowNibble : (0xFF29 : Word) &&& 0xF0FF = 0xF029 := by decide

/-- The sums 0x0FFF and 0x1000, and a machine of each setting. -/
theorem witness_AddIndexReportsOverflow :
    (∃ s : State, s.I.toNat + (s.getV 1).toNat = 0x1000 ∧ s.I.toNat + (s.getV 1).toNat > 0x0FFF) ∧
    (∃ s : State, s.I.toNat + (s.getV 1).toNat = 0x0FFF ∧ s.I.toNat + (s.getV 1).toNat ≤ 0x0FFF ∧
      s.settings.fx1eElse = .zero) ∧
    ∃ s : State, s.I.toNat + (s.getV 1).toNat = 0x0FFF ∧ s.I.toNat + (s.getV 1).toNat ≤ 0x0FFF ∧
      s.settings.fx1eElse = .unchanged :=
  ⟨⟨(regs [(1, 0x10)]).setI 0xFF0, by decide⟩, ⟨(regs [(1, 0xF)]).setI 0xFF0, by decide⟩,
    { (regs [(1, 0xF)]).setI 0xFF0 with settings := { defaultSettings with fx1eElse := .unchanged } }, by decide⟩

theorem witness_BcdStoresDecimalDigits :
    (∃ s : State, s.I = 0xFFD ∧ s.I.toNat + 2 ≤ 0xFFF) ∧ ∃ s : State, s.I = 0xFFE ∧ s.I.toNat + 2 > 0xFFF :=
  ⟨⟨State.reset.setI 0xFFD, by decide⟩, State.reset.setI 0xFFE, by decide⟩

theorem witness_StoreRegistersAtI :
    (∃ s : State, s.I.toNat + (15 : Reg).val ≤ 0xFFF ∧ s.I = 0xFF0) ∧
    ∃ s : State, s.I.toNat + (15 : Reg).val > 0xFFF ∧ s.I = 0xFF1 :=
  ⟨⟨State.reset.setI 0xFF0, by decide⟩, State.reset.setI 0xFF1, by decide⟩

theorem witness_LoadRegistersFromI :
    (∃ s : State, s.I.toNat + (0 : Reg).val ≤ 0xFFF ∧ s.I = 0xFFF) ∧
    ∃ s : State, s.I.toNat + (0 : Reg).val > 0xFFF ∧ s.I = 0x1000 :=
  ⟨⟨State.reset.setI 0xFFF, by decide⟩, State.reset.setI 0x1000, by decide⟩

/-- The state STM V1 of 12, 0A at 0x208 leaves. -/
def stored : State := ((regs [(0, 0x12), (1, 0x0A)]).setI 0x208).writeBytes 0x208 [0x12, 0x0A]

/-- STM V1 of 12, 0A at 0x208 (program P6); a state with its memory and I, and one that fetches what it stored. -/
theorem witness_StoredRegistersAreReadBack :
    ∃ s t u v : State, s.I.toNat + (1 : Reg).val ≤ 0xFFF ∧ exec (.stm 1) s = .next t ∧
      ((∀ a, u.readByte a = t.readByte a) ∧ u.I = t.I ∧ u ≠ t) ∧
      (∀ a, v.readByte a = t.readByte a) ∧ v.pc = s.I ∧ decodeWord (s.getV 0 ++ s.getV 1) = .ok (.jp 0x20A) :=
  ⟨(regs [(0, 0x12), (1, 0x0A)]).setI 0x208, stored, { stored with dt := 1 }, { stored with pc := 0x208 },
    by decide, rfl, ⟨fun _ => rfl, rfl, by decide +kernel⟩, fun _ => rfl, rfl, by decide⟩

theorem witness_ReadReturnsLatestWrite :
    ([1, 2, 3] : List Byte) ≠ [] ∧ 0xFFD + ([1, 2, 3] : List Byte).length - 1 ≤ 0xFFF ∧
    0xFFE + ([1, 2, 3] : List Byte).length - 1 > 0xFFF ∧ State.reset.mem.wf State.reset.font = true := by decide

theorem witness_CanonicalMemoryIsUnique :
    ∃ m m' : Memory, m ≠ [] ∧ m.wf defaultFont = true ∧ m'.wf defaultFont = true ∧
      ∀ a, m.get defaultFont a = m'.get defaultFont a :=
  ⟨[(0xFFF, 1)], [(0xFFF, 1)], by decide, by decide, by decide, fun _ => rfl⟩

/-- A sprite of no row has no set pixel. -/
theorem spriteBit_no_row (s : State) (row col : Nat) : spriteBit s 1 2 0 row col = false := by
  unfold spriteBit
  rw [Bool.eq_false_iff]
  simp only [ne_eq, Bool.and_eq_true, decide_eq_true_eq]
  rintro ⟨⟨h1, h2⟩, _⟩
  exact absurd h2 (not_lt.mpr h1)

/-- DRW of no row at I = 0xFFFF, of five rows at 0xFFB, of five rows at 0xFFC; with a collision and without;
across the right edge of a machine that wraps. -/
theorem witness_DrawXorsSpriteOntoScreen :
    (∃ (n : Rows) (s : State), s.I = 0xFFFF ∧ (n.val = 0 ∨ s.I.toNat + n.val - 1 ≤ 0xFFF) ∧ ¬ collides s 1 2 n) ∧
    (∃ (n : Rows) (s : State), s.I = 0xFFB ∧ (n.val = 0 ∨ s.I.toNat + n.val - 1 ≤ 0xFFF) ∧ n.val = 5) ∧
    (∃ s : State, ((1 : Rows).val = 0 ∨ s.I.toNat + (1 : Rows).val - 1 ≤ 0xFFF) ∧ collides s 1 2 1) ∧
    (∃ s : State, s.settings.drawXPolicy = .wrap ∧ ((1 : Rows).val = 0 ∨ s.I.toNat + (1 : Rows).val - 1 ≤ 0xFFF) ∧
      startColumn (s.getV 1) = 63 ∧ spriteBit s 1 2 1 0 6 = true) ∧
    ∃ (n : Rows) (s : State), s.I = 0xFFC ∧ n.val ≠ 0 ∧ s.I.toNat + n.val - 1 > 0xFFF :=
  ⟨⟨0, State.reset.setI 0xFFFF, by decide, by decide,
      fun ⟨row, col, _, _, _, h⟩ => by rw [spriteBit_no_row] at h; exact absurd h (by decide)⟩,
    ⟨5, State.reset.setI 0xFFB, by decide⟩,
    ⟨{ sprite [] with fb := Screen.blank.toggle 0 7 }, by decide +kernel, 0, 7, by decide +kernel⟩,
    ⟨{ sprite [(1, 63)] with settings := { defaultSettings with drawXPolicy := .wrap } }, by decide +kernel⟩,
    5, State.reset.setI 0xFFC, by decide⟩

/-- Two draws of one row from a blank screen, no register named being VF: no collision, and a pixel on the screen. -/
theorem witness_DrawingTwiceRestoresScreen :
    63 < 64 ∧ ∃ s t : State, ((1 : Rows).val = 0 ∨ s.I.toNat + (1 : Rows).val - 1 ≤ 0xFFF) ∧
      exec (.drw 1 2 1) s = .next t ∧ startColumn (t.getV 1) = startColumn (s.getV 1) ∧
      startRow (t.getV 2) = startRow (s.getV 2) ∧ ¬ collides s 1 2 1 ∧
      ∃ row col, row < 32 ∧ col < 64 ∧ spriteBit s 1 2 1 row col = true :=
  ⟨by decide, sprite [(1, 63)], _, by decide +kernel, rfl, by decide +kernel, by decide +kernel,
    by
      rintro ⟨row, col, hr, hc, hp, _⟩
      have : (sprite [(1, 63)]).fb = Screen.blank := by decide +kernel
      rw [this] at hp
      have : ∀ row < 32, ∀ col < 64, Screen.blank.pixel row col = false := by decide +kernel
      rw [this row hr col hc] at hp
      exact absurd hp (by decide),
    0, 63, by decide +kernel⟩

/-- Two draws of no row: no pixel of the sprite is on the screen. -/
theorem witness_DrawingNothingTwice :
    ∃ t, exec (.drw 1 2 0) State.reset = .next t ∧ ¬ collides State.reset 1 2 0 ∧
      ∀ row col, row < 32 → col < 64 → spriteBit State.reset 1 2 0 row col = false :=
  ⟨_, rfl, fun ⟨row, col, _, _, _, h⟩ => by rw [spriteBit_no_row] at h; exact absurd h (by decide),
    fun row col _ _ => spriteBit_no_row _ row col⟩

theorem witness_SpriteRowIsWordXor : ∃ x0 y : Nat, x0 < 64 ∧ y < 32 ∧ x0 = 63 ∧ y = 31 := ⟨63, 31, by decide⟩

theorem witness_KeySkipsTestNamedKey :
    (∃ s : State, s.getV 1 = 0xF ∧ (s.getV 1).toNat ≤ 0xF) ∧ ∃ s : State, s.getV 1 = 0x10 ∧ (s.getV 1).toNat > 0xF :=
  ⟨⟨regs [(1, 0xF)], by decide⟩, regs [(1, 0x10)], by decide⟩

theorem witness_WaitKeyTakesLowestKey :
    (∃ s : State, s.keys ≠ 0) ∧
    ∃ s : State, s.schedule = [] ∧ s.nextInstr = some (.wkey 0) ∧ s.keys = 0 :=
  ⟨⟨{ State.reset with keys := 0x8000 }, by decide⟩, placed 0x200 0xF00A, by decide +kernel⟩

theorem witness_DelayTimerMoves :
    (0xFF07 : Word) &&& 0xF0FF = 0xF007 ∧ (0xFF15 : Word) &&& 0xF0FF = 0xF015 := by decide

/-- A step of LDI, then a tick. -/
theorem witness_TicksAreNeverLost :
    ∃ s t : State, (∀ bytes, Event.load bytes ∉ [Event.step, .tick]) ∧
      (∀ before after u, [Event.step, .tick] = before ++ Event.step :: after → runEvents before s = .next u →
        ∀ x, u.nextInstr ≠ some (.sdt x)) ∧
      runEvents [.step, .tick] s = .next t ∧ s.dt = 2 := by
  refine ⟨{ placed 0x200 0x6005 with dt := 2 }, _, by simp, ?_, rfl, rfl⟩
  rintro (_ | ⟨e, _ | ⟨f, before⟩⟩) after u h hu x
  · cases hu
    revert x
    decide +kernel
  · simp at h
  · simp at h

/-- A start and a stop by SST, a stop by a tick, a stop by a load of the largest size; a schedule with a load. -/
theorem witness_ToneSignalsHaveOnlyTheirCauses :
    (∃ s t : State, s.deliver .step = .next t ∧ toneSignal .step s t = some .start) ∧
    (∃ s t : State, s.deliver .step = .next t ∧ toneSignal .step s t = some .stop) ∧
    (∃ s t : State, s.fault = none ∧ s.deliver .tick = .next t ∧ toneSignal .tick s t = some .stop) ∧
    (∃ (s : State) (bytes : List Byte), bytes.length ≤ 3584 ∧ s.st ≠ 0) ∧
    ∀ bytes, Event.load bytes ∈ [.load [0xF1, 0x18], .step, .tick] → bytes.length ≤ 3584 :=
  ⟨⟨(placed 0x200 0xF118).setV 1 3, _, rfl, by decide +kernel⟩,
    ⟨{ placed 0x200 0xF118 with st := 3 }, _, rfl, by decide +kernel⟩,
    ⟨{ State.reset with st := 1 }, _, rfl, rfl, by decide +kernel⟩,
    ⟨{ State.reset with st := 1 }, List.replicate 3584 0, List.length_replicate.le, by decide⟩,
    by simp⟩

theorem witness_TickCommutesWithStep :
    ∃ s t : State, s.interpret = .next t ∧ s.dt ≠ 0 ∧ s.nextInstr = some (.ldi 0 5) ∧
      ∀ x, s.nextInstr ≠ some (.gdt x) ∧ s.nextInstr ≠ some (.sdt x) ∧ s.nextInstr ≠ some (.sst x) :=
  ⟨{ placed 0x200 0x6005 with dt := 2 }, _, rfl, by decide, by decide +kernel, by decide +kernel⟩

theorem witness_PrevAndSoundAreUnobservable :
    ∃ s t : State, s.interpret = .next t ∧ s.st ≠ 0 ∧ ∀ x, s.nextInstr ≠ some (.sst x) :=
  ⟨{ placed 0x200 0xF007 with st := 2 }, _, rfl, by decide, by decide +kernel⟩

theorem witness_LoadPlacesProgram :
    ∃ bytes : List Byte, bytes.length = 3584 ∧ bytes.length ≤ 3584 ∧ 3583 < bytes.length :=
  ⟨List.replicate 3584 0x60, List.length_replicate, List.length_replicate.le, List.length_replicate.ge⟩

theorem witness_OversizeLoadFails : ∃ bytes : List Byte, bytes.length = 3585 ∧ bytes.length > 3584 :=
  ⟨List.replicate 3585 0x60, List.length_replicate, List.length_replicate.ge⟩

theorem witness_InvariantHoldsAfterLoad : ∃ bytes : List Byte, bytes.length = 3584 ∧ bytes.length ≤ 3584 :=
  ⟨List.replicate 3584 0x60, List.length_replicate, List.length_replicate.le⟩

/-- A state that meets the invariant and steps, with the call stack full and pc at the last word. -/
theorem witness_StepKeepsInvariant :
    ∃ s t : State, s.Inv ∧ step s = .next t ∧ s.pc = 0xFFE ∧ s.sp = 16 :=
  ⟨{ placed 0xFFE 0x00EE with sp := 16, stack := Vector.replicate 16 0x1000 }, _, by decide +kernel, rfl, rfl, rfl⟩

/-- The bounds of the invariant are values: the highest pc with a valid entry of 2, and a failed load's state. -/
theorem witness_invariant_boundaries :
    State.Inv { State.reset with pc := 0x10FE, sp := 1, stack := Vector.replicate 16 2 } ∧
    State.Inv { State.reset with pc := 0xFFFF, fault := some .loadError } ∧
    ¬ State.Inv { State.reset with pc := 0x10FF } := by decide +kernel

theorem witness_PrevIsAnEarlierFrame :
    ∃ t, runEvents [.load [0x00, 0xE0], .step, .commitFrame] State.reset = .next t ∧
      ∀ bytes, Event.load bytes ∈ [.load [0x00, 0xE0], .step, .commitFrame] → bytes.length ≤ 3584 :=
  ⟨_, rfl, by simp⟩

theorem witness_EndedProgramStaysAtEnd :
    ∃ s : State, s.atEnd ∧ ∀ bytes, Event.load bytes ∉ [.step, .tick, .commitFrame] :=
  ⟨placed 0x200 0x1200, ⟨by decide +kernel, 0x200, by decide +kernel⟩, by simp⟩

end Sys2Proof.Tests
end

section
/-! Proofs.StepCycle: the step cycle of 40_step_cycle.md; the step that meets a word that is no instruction (R83). -/

namespace Sys2Proof.Machine

/-- What the host is told of a `Step` from a running block is the kind its next state latches. -/
theorem report_step_of_fault {s t : State} {k : Fault} (hs : s.fault = none) (ht : t.fault = some k) :
    report .step s t = some (k, stepInfo s k) := by
  simp [report, hs, ht]

/-- The information reported with InvalidOpcode is the fetched word and its address (R88, R170). -/
theorem stepInfo_invalidOpcode (s : State) :
    stepInfo s .invalidOpcode = .opcode [s.readByte s.pc.toNat, s.readByte (s.pc.toNat + 1)] s.pc := by
  rw [stepInfo, readBytes_two]

/-- The frame of a step that only moves pc and raises a fault (R86). -/
theorem sameExcept_setPc_latch (s : State) (w : Word) (k : Fault) :
    SameExcept [.pc, .fault] s ((s.setPc w).latch k) :=
  ((sameExcept_setPc s w).mono (by simp)).trans ((sameExcept_latch _ k).mono (by simp))

/-- Settles O8: the step answers `(s.setPc (s.pc + 2)).latch .invalidOpcode`, by the law `interpret_illegal`. -/
theorem illegalWordRaisesInvalidOpcode : Obligations.IllegalWordRaisesInvalidOpcode := by
  intro s e hsched hfault hpc hdecode
  have hstep : step s = .next ((s.setPc (s.pc + 2)).latch .invalidOpcode) :=
    (step_nil hsched).trans (interpret_illegal hfault hpc hdecode)
  refine ⟨_, hstep, latch_fault _ _, rfl, sameExcept_setPc_latch s _ _, ?_⟩
  rw [report_step_of_fault hfault (latch_fault _ _), stepInfo_invalidOpcode]

end Sys2Proof.Machine
end

section
/-! Proofs.ControlFlow: the control transfers of 41_control_flow.md; JP (R91) and CALL (R92). -/

namespace Sys2Proof.Machine

/-! ### Writes of pc -/

@[simp] theorem setPc_setPc (s : State) (w w' : Word) : (s.setPc w).setPc w' = s.setPc w' := rfl

@[simp] theorem setPc_self (s : State) : s.setPc s.pc = s := rfl

/-! ### JP -/

/-- JP never faults: its answer is one write of pc (R91). -/
theorem exec_jp (nnn : Lit12) (s : State) : exec (.jp nnn) s = .next (s.setPc (addrLit nnn)) := rfl

/-- A literal names the address in pc when the two are one number: zero extension loses nothing (R65). -/
theorem addrLit_eq_iff {nnn : Lit12} {w : Word} : addrLit nnn = w ↔ nnn.toNat = w.toNat := by
  rw [← BitVec.toNat_inj, toNat_addrLit]

/-- A jump to its own address writes back the pc that the step had advanced, so the block stays as it is (R91, R222). -/
theorem interpret_selfJump {s : State} {nnn : Lit12} (hfault : s.fault = none) (hnext : s.nextInstr = some (.jp nnn))
    (hself : addrLit nnn = s.pc) : s.interpret = .next s := by
  rw [interpret_executed hfault hnext, exec_jp, setPc_setPc, hself, setPc_self]

/-- Settles O15: JP is one write of pc (`exec_jp`); 0xFFF is past the last address a
word can be fetched from; a jump to itself leaves the block as it is (`interpret_selfJump`). -/
theorem jumpSetsProgramCounter : Obligations.JumpSetsProgramCounter := by
  refine ⟨fun w => decodeWord_family1, ?effect, ?topAddress, ?selfJump⟩
  case effect =>
    intro nnn s
    exact ⟨_, exec_jp nnn s, toNat_addrLit nnn, sameExcept_setPc s _⟩
  case topAddress =>
    intro s t hexec hsched hfault
    have ht : s.setPc (addrLit 0xFFF) = t := Host.Outcome.next.inj hexec
    have hpc : t.pc.toNat + 1 > 0xFFF := by rw [← ht, setPc_pc, toNat_addrLit]; decide
    exact ⟨_, (step_nil hsched).trans (interpret_fetchFault hfault hpc), latch_fault t _⟩
  case selfJump =>
    intro nnn s hsched hfault hnext hself
    exact (step_nil hsched).trans (interpret_selfJump hfault hnext (addrLit_eq_iff.mpr hself))

/-! ### CALL -/

/-- The arm of CALL in the execute phase. -/
theorem exec_call (nnn : Lit12) (s : State) : exec (.call nnn) s = execCall nnn s := rfl

/-- The frame of a push followed by a jump. -/
theorem sameExcept_push_setPc {s t : State} {w : Word} (hpush : s.push w = some t) (target : Word) :
    SameExcept [.pc, .stack, .sp] s (t.setPc target) :=
  ((sameExcept_push hpush).mono (by simp)).trans ((sameExcept_setPc t target).mono (by simp))

/-- Settles O16: with room the push of the advanced pc succeeds and only pc is written after it; with sixteen entries
the push answers nothing and the latch is all that is written. -/
theorem callPushesReturnAddress : Obligations.CallPushesReturnAddress := by
  refine ⟨fun w => decodeWord_family2, fun nnn s => ⟨?room, ?full⟩⟩
  case room =>
    intro hroom
    obtain ⟨t, hpush⟩ := exists_push s.pc hroom
    obtain ⟨-, hsp, htop, hothers, -⟩ := push_eq_some hpush
    exact ⟨t.setPc (addrLit nnn), (exec_call nnn s).trans (execCall_push hpush), toNat_addrLit nnn, hsp, htop,
      hothers, sameExcept_push_setPc hpush _⟩
  case full =>
    intro hfull
    exact ⟨s.latch .stackOverflow, (exec_call nnn s).trans (execCall_full hfull), latch_fault s _,
      sameExcept_latch s _⟩

end Sys2Proof.Machine
end

section
/-! Proofs.Skips: the conditional skips of 42_skips.md; by a literal (R100, R101) and by a register (R102, R103). -/

namespace Sys2Proof.Machine

/-! ### What a skip answers

The arm of each of the four in the execute phase is one `skipIf`, of its own comparison. -/

theorem exec_sei (x : Reg) (nn : Byte) (s : State) : exec (.sei x nn) s = .next (s.skipIf (s.getV x == nn)) := rfl

theorem exec_snei (x : Reg) (nn : Byte) (s : State) : exec (.snei x nn) s = .next (s.skipIf (s.getV x != nn)) := rfl

theorem exec_se (x y : Reg) (s : State) : exec (.se x y) s = .next (s.skipIf (s.getV x == s.getV y)) := rfl

theorem exec_sne (x y : Reg) (s : State) : exec (.sne x y) s = .next (s.skipIf (s.getV x != s.getV y)) := rfl

/-- An instruction that answers `skipIf` of a test for `p` moves pc two further exactly when `p` holds, and writes
nothing else: what the four skips have in common. -/
theorem exec_skipIf_effect {i : Instr} {s : State} {c : Bool} {p : Prop} [Decidable p]
    (hexec : exec i s = .next (s.skipIf c)) (htest : c = true ↔ p) :
    ∃ t, exec i s = .next t ∧ t.pc = (if p then s.pc + 2 else s.pc) ∧ SameExcept [.pc] s t := by
  have hpc : (s.skipIf c).pc = if p then s.pc + 2 else s.pc := by simp only [skipIf_eq_setPc, setPc_pc, htest]
  exact ⟨_, hexec, hpc, sameExcept_skipIf s c⟩

/-- Settles O20: both skips are `skipIf` of a comparison of VX with the literal (`exec_skipIf_effect`). -/
theorem immediateSkips : Obligations.ImmediateSkips := by
  refine ⟨fun w => decodeWord_family3, fun w => decodeWord_family4, fun x nn s => ⟨?sei, ?snei⟩⟩
  case sei => exact exec_skipIf_effect (exec_sei x nn s) beq_iff_eq
  case snei => exact exec_skipIf_effect (exec_snei x nn s) bne_iff_ne

/-! ### Malformed words of families 5 and 9 -/

/-- A word `5XYN` or `9XYN` with `N ≠ 0` is no instruction (R68, R172 (b)). -/
theorem decodeWord_malformedSkip {w : Word} (hfamily : fieldF w = 0x5 ∨ fieldF w = 0x9) (hn : fieldN w ≠ 0) :
    decodeWord w = .error (.malformedSkip (fieldF w)) := by
  obtain h5 | h9 := hfamily
  · rw [decodeWord_family5 h5, if_neg hn, h5]
  · rw [decodeWord_family9 h9, if_neg hn, h9]

/-- A fetch that answers the bytes of `w` stayed in memory, and the two bytes at pc, high byte first, form `w` (R49). -/
theorem fetch_eq_wordBytes {s : State} {w : Word} (hfetch : s.fetch = some (wordBytes w)) :
    s.pc.toNat + 1 ≤ 0xFFF ∧ s.readByte s.pc.toNat ++ s.readByte (s.pc.toNat + 1) = w := by
  rw [fetch_eq, Option.ite_none_right_eq_some] at hfetch
  obtain ⟨hle, hbytes⟩ := hfetch
  obtain ⟨hhigh, hlow⟩ : s.readByte s.pc.toNat = w.extractLsb' 8 8 ∧
      s.readByte (s.pc.toNat + 1) = w.extractLsb' 0 8 := by simpa [wordBytes] using hbytes
  rw [hhigh, hlow]
  exact ⟨hle, opcode_wordBytes w⟩

/-- Settles O21: the register skips are `skipIf` of a comparison of VX with VY (`exec_skipIf_effect`); a malformed word
is no instruction (`decodeWord_malformedSkip`), so the step that fetches it is the illegal one (`interpret_illegal`). -/
theorem registerSkips : Obligations.RegisterSkips := by
  refine ⟨fun w h5 hn => (decodeWord_family5 h5).trans (if_pos hn),
    fun w h9 hn => (decodeWord_family9 h9).trans (if_pos hn), ?malformed, fun x y s => ⟨?se, ?sne⟩⟩
  case malformed =>
    intro w s hfamily hn hsched hfault hfetch
    obtain ⟨hle, hword⟩ := fetch_eq_wordBytes hfetch
    have hillegal := (congrArg decodeWord hword).trans (decodeWord_malformedSkip hfamily hn)
    exact ⟨_, (step_nil hsched).trans (interpret_illegal hfault hle hillegal), latch_fault _ _⟩
  case se => exact exec_skipIf_effect (exec_se x y s) beq_iff_eq
  case sne => exact exec_skipIf_effect (exec_sne x y s) bne_iff_ne

end Sys2Proof.Machine
end

section
/-! Proofs.Alu: the moves, the logic and the addition of 43_alu.md; LDI, ADDI, MOV (R111 to R113), OR, AND, XOR (R114 to
R116) and ADD (R117). -/

namespace Sys2Proof.Machine

/-! ### Decoding family 8 -/

/-- What the mask of format `REG_REG` leaves of a word of family 8 selects its member (R63, R64). -/
theorem decodeWord_of_and_F00F {w : Word} {n : BitVec 4} (h : w &&& 0xF00F = wordRegReg 0x8 0 0 n) :
    decodeWord w = decodeFamily8 (fieldX w) (fieldY w) n.toFin := by
  obtain ⟨hfamily, hn⟩ := and_F00F_eq.mp h
  rw [decodeWord_family8 hfamily, hn]

/-! ### What each instruction answers

One write of VX, or a write of VX and then one of VF (R110). -/

theorem exec_ldi (x : Reg) (nn : Byte) (s : State) : exec (.ldi x nn) s = .next (s.setV x nn) := rfl

theorem exec_addi (x : Reg) (nn : Byte) (s : State) : exec (.addi x nn) s = .next (s.setV x (s.getV x + nn)) := rfl

theorem exec_mov (x y : Reg) (s : State) : exec (.mov x y) s = .next (s.setV x (s.getV y)) := rfl

theorem exec_or (x y : Reg) (s : State) :
    exec (.or x y) s = .next ((s.setV x (s.getV x ||| s.getV y)).setFlag false) := rfl

theorem exec_and (x y : Reg) (s : State) :
    exec (.and x y) s = .next ((s.setV x (s.getV x &&& s.getV y)).setFlag false) := rfl

theorem exec_xor (x y : Reg) (s : State) :
    exec (.xor x y) s = .next ((s.setV x (s.getV x ^^^ s.getV y)).setFlag false) := rfl

/-- The sum modulo 256 is the sum of the bytes as words. -/
theorem exec_add (x y : Reg) (s : State) :
    exec (.add x y) s = .next ((s.setV x (s.getV x + s.getV y)).setFlag (carry (s.getV x) (s.getV y))) := rfl

/-- An instruction that answers one write of VX: what LDI, ADDI and MOV have in common. -/
theorem exec_setV_effect {i : Instr} {s : State} {x : Reg} {b : Byte} (hexec : exec i s = .next (s.setV x b)) :
    ∃ t, exec i s = .next t ∧ t.getV x = b ∧ SameExcept [.V x] s t :=
  ⟨_, hexec, getV_setV_self s x b, sameExcept_setV s x b⟩

/-- An instruction that answers a write of VX and then one of VF: the flag, written last, is what VF ends as, and VX
keeps the result where it is not VF. What OR, AND, XOR and ADD have in common. -/
theorem exec_setV_setFlag_effect {i : Instr} {s : State} {x : Reg} {b : Byte} {c : Bool}
    (hexec : exec i s = .next ((s.setV x b).setFlag c)) :
    ∃ t, exec i s = .next t ∧ (x ≠ VF → t.getV x = b) ∧ t.getV VF = flagByte c ∧ SameExcept [.V x, .V VF] s t := by
  have hresult (hx : x ≠ VF) : ((s.setV x b).setFlag c).getV x = b := by rw [getV_setFlag_ne _ c hx, getV_setV_self]
  exact ⟨_, hexec, hresult, getV_setFlag_self _ c, sameExcept_setV_setFlag s x b c⟩

/-! ### LDI, ADDI and MOV -/

/-- Settles O22: each of the three is one write of VX (`exec_setV_effect`). -/
theorem loadMoveAndAddImmediate : Obligations.LoadMoveAndAddImmediate := by
  refine ⟨fun w => decodeWord_family6, fun w => decodeWord_family7, fun w => decodeWord_of_and_F00F (n := 0x0),
    fun x y nn s => ⟨?ldi, ?addi, ?mov⟩⟩
  case ldi => exact exec_setV_effect (exec_ldi x nn s)
  case addi =>
    obtain ⟨t, hexec, hsum, hframe⟩ := exec_setV_effect (exec_addi x nn s)
    exact ⟨t, hexec, (congrArg BitVec.toNat hsum).trans (BitVec.toNat_add _ _), hframe⟩
  case mov => exact exec_setV_effect (exec_mov x y s)

/-! ### OR, AND and XOR -/

/-- Settles O23: each of the three writes its result and then the flag of a false condition, which is 0
(`exec_setV_setFlag_effect`). -/
theorem logicResultsZeroFlag : Obligations.LogicResultsZeroFlag := by
  refine ⟨fun w => decodeWord_of_and_F00F (n := 0x1), fun w => decodeWord_of_and_F00F (n := 0x2),
    fun w => decodeWord_of_and_F00F (n := 0x3), fun x y s => ⟨?or, ?and, ?xor⟩⟩
  case or => exact exec_setV_setFlag_effect (exec_or x y s)
  case and => exact exec_setV_setFlag_effect (exec_and x y s)
  case xor => exact exec_setV_setFlag_effect (exec_xor x y s)

/-! ### ADD -/

/-- The carry as a flag: 1 exactly when the sum of the two bytes does not fit one (R117, R123). -/
theorem flagByte_carry (a b : Byte) : flagByte (carry a b) = if a.toNat + b.toNat > 255 then 1 else 0 :=
  if_congr decide_eq_true_iff rfl rfl

/-- Settles O24: the carry is computed from the operands before the sum is written, and is written after it
(`exec_setV_setFlag_effect`, `flagByte_carry`). -/
theorem addSetsCarry : Obligations.AddSetsCarry := by
  refine ⟨fun w => decodeWord_of_and_F00F (n := 0x4), fun x y s => ?_⟩
  obtain ⟨t, hexec, hsum, hflag, hframe⟩ := exec_setV_setFlag_effect (exec_add x y s)
  exact ⟨t, hexec, fun hx => (congrArg BitVec.toNat (hsum hx)).trans (BitVec.toNat_add _ _),
    hflag.trans (flagByte_carry _ _), hframe⟩

end Sys2Proof.Machine
end

section
/-! Proofs.Index: the writes of I of 44_index_memory.md; LDA (R130) and FONT (R132). -/

namespace Sys2Proof.Machine

/-! ### LDA -/

/-- LDA accepts every literal: its answer is one write of I (R130). -/
theorem exec_lda (nnn : Lit12) (s : State) : exec (.lda nnn) s = .next (s.setI (addrLit nnn)) := rfl

/-- Settles O29: LDA is one write of I (`exec_lda`), and zero extension keeps the number of the literal. -/
theorem loadIndexSetsI : Obligations.LoadIndexSetsI :=
  ⟨fun _ => decodeWord_familyA, fun nnn s => ⟨_, exec_lda nnn s, toNat_addrLit nnn, sameExcept_setI s _⟩⟩

/-! ### FONT -/

/-- What the mask of format `REG` leaves of a word of family F selects its member (R63, R64). -/
theorem decodeWord_of_and_F0FF {w : Word} {nn : Byte} (h : w &&& 0xF0FF = wordRegImm 0xF 0 nn) :
    decodeWord w = decodeFamilyF (fieldX w) nn := by
  obtain ⟨hfamily, hnn⟩ := and_F0FF_eq.mp h
  rw [decodeWord_familyF hfamily, hnn]

/-- FONT reads VX and no memory: its answer is one write of I (R132). -/
theorem exec_font (x : Reg) (s : State) : exec (.font x) s = .next (s.setI (glyphAddr (s.getV x))) := rfl

/-- Masking a byte with 0xF leaves it modulo 16, its low nibble. -/
theorem toNat_and_0xF (v : Byte) : (v &&& 0xF).toNat = v.toNat % 16 :=
  (BitVec.toNat_and v 0xF).trans (Nat.and_two_pow_sub_one_eq_mod v.toNat 4)

/-- The glyphs lie five bytes apart from 0x050, and no glyph's address wraps (R132). -/
theorem toNat_glyphAddr (v : Byte) : (glyphAddr v).toNat = 0x050 + 5 * (v.toNat % 16) := by
  rw [glyphAddr, toNat_and_0xF, BitVec.toNat_ofNat]
  exact Nat.mod_eq_of_lt (by dsimp only [Config.fontBase, Config.glyphBytes]; omega)

/-- The lowest address is that of glyph 0, the highest that of glyph F (R132). -/
theorem glyphAddr_bounds (v : Byte) : 0x050 ≤ (glyphAddr v).toNat ∧ (glyphAddr v).toNat ≤ 0x09B := by
  rw [toNat_glyphAddr]
  omega

/-- Settles O30: FONT is one write of I (`exec_font`), of the glyph's address (`toNat_glyphAddr`). -/
theorem fontAddressOfLowNibble : Obligations.FontAddressOfLowNibble := by
  refine ⟨fun w => decodeWord_of_and_F0FF (nn := 0x29), fun x s => ?_⟩
  obtain ⟨hlow, hhigh⟩ := glyphAddr_bounds (s.getV x)
  exact ⟨_, exec_font x s, toNat_glyphAddr _, hlow, hhigh, sameExcept_setI s _⟩

end Sys2Proof.Machine
end

section
/-! Proofs.Timers: the moves of the delay timer of 47_timers.md; GDT (R160) and SDT (R161). -/

namespace Sys2Proof.Machine

/-- GDT is one write of VX (R160). -/
theorem exec_gdt (x : Reg) (s : State) : exec (.gdt x) s = .next (s.setV x s.dt) := rfl

/-- SDT takes any value, 0 included: its answer is one write of the delay timer (R161). -/
theorem exec_sdt (x : Reg) (s : State) : exec (.sdt x) s = .next { s with dt := s.getV x } := rfl

/-- The frame of a write of the delay timer. -/
theorem sameExcept_withDt (s : State) (b : Byte) : SameExcept [.dt] s { s with dt := b } := by
  constructor
  case dt => intro h; simp at h
  all_goals intros; rfl

/-- Settles O45: GDT is one write of VX (`exec_setV_effect`), SDT one write of the delay timer
(`sameExcept_withDt`). -/
theorem delayTimerMoves : Obligations.DelayTimerMoves := by
  refine ⟨fun w => decodeWord_of_and_F0FF (nn := 0x07), fun w => decodeWord_of_and_F0FF (nn := 0x15),
    fun x s => ⟨?gdt, ?sdt⟩⟩
  case gdt => exact exec_setV_effect (exec_gdt x s)
  case sdt => exact ⟨_, exec_sdt x s, rfl, sameExcept_withDt s (s.getV x)⟩

end Sys2Proof.Machine
end

section
/-! Proofs.Encoding: the encoder and the decoder of 30_encoding.md are inverse (R60 to R66), the opcode map selects
what the decoder reads (R63, R64), the illegal encodings (R68), and the assembly of written lines (R71). -/

namespace Sys2Proof

/-! ### The decoder after the encoder -/

/-- Every instruction's word decodes to it: the family of the word selects the row, and the fields of a built word are
the operands it was built of. -/
theorem decodeWord_encodeWord (i : Instr) : decodeWord (encodeWord i) = .ok i := by
  cases i
  case cls | ret => rfl
  case jp => simp [encodeWord, decodeWord_family1]
  case call => simp [encodeWord, decodeWord_family2]
  case sei => simp [encodeWord, decodeWord_family3]
  case snei => simp [encodeWord, decodeWord_family4]
  case se => simp [encodeWord, decodeWord_family5]
  case ldi => simp [encodeWord, decodeWord_family6]
  case addi => simp [encodeWord, decodeWord_family7]
  case mov | or | and | xor | add | sub | shr | subn | shl => simp [encodeWord, decodeWord_family8, decodeFamily8]
  case sne => simp [encodeWord, decodeWord_family9]
  case lda => simp [encodeWord, decodeWord_familyA]
  case jp0 => simp [encodeWord, decodeWord_familyB]
  case rnd => simp [encodeWord, decodeWord_familyC]
  case drw => simp [encodeWord, decodeWord_familyD]
  case skp | sknp => simp [encodeWord, decodeWord_familyE, decodeFamilyE]
  case gdt | wkey | sdt | sst | adda | font | bcd | stm | ldm =>
    simp [encodeWord, decodeWord_familyF, decodeFamilyF]

/-! ### The encoder after the decoder, family by family -/

theorem encodeWord_of_decodeFamily0 {w : Word} {i : Instr} (h : decodeFamily0 w = .ok i) : encodeWord i = w := by
  unfold decodeFamily0 at h
  split at h
  · cases h; exact Eq.symm ‹_›
  · split at h
    · cases h; exact Eq.symm ‹_›
    · cases h

/-- A member of family 8 is encoded with the function nibble that selected it. -/
theorem encodeWord_of_decodeFamily8 {x y : Reg} {n : Rows} {i : Instr} (h : decodeFamily8 x y n = .ok i) :
    encodeWord i = wordRegReg 0x8 x y (nibble n) := by
  obtain ⟨n, hn⟩ := n
  unfold decodeFamily8 at h
  split at h <;> cases h <;> (rename_i hval; cases hval; rfl)

/-- A member of family E is encoded with the byte that selected it. -/
theorem encodeWord_of_decodeFamilyE {x : Reg} {nn : Byte} {i : Instr} (h : decodeFamilyE x nn = .ok i) :
    encodeWord i = wordRegImm 0xE x nn := by
  unfold decodeFamilyE at h
  split_ifs at h <;> cases h <;> (subst ‹nn = _›; rfl)

/-- A member of family F is encoded with the byte that selected it. -/
theorem encodeWord_of_decodeFamilyF {x : Reg} {nn : Byte} {i : Instr} (h : decodeFamilyF x nn = .ok i) :
    encodeWord i = wordRegImm 0xF x nn := by
  unfold decodeFamilyF at h
  split_ifs at h <;> cases h <;> (subst ‹nn = _›; rfl)

/-- A register skip is encoded with the zero nibble that made it well formed (families 5 and 9). -/
theorem encodeWord_of_registerSkip {w : Word} {f : BitVec 4} {mk : Reg → Reg → Instr} {e : DecodeError} {i : Instr}
    (hfamily : fieldF w = f) (hmk : ∀ x y, encodeWord (mk x y) = wordRegReg f x y 0x0)
    (h : (if fieldN w = 0 then .ok (mk (fieldX w) (fieldY w)) else .error e) = Except.ok i) : encodeWord i = w := by
  split_ifs at h with hn
  cases h
  rw [hmk, eq_wordRegReg hfamily, hn]
  simp
  rfl

/-- Every word that decodes is the word of what it decodes to: its fields rebuild it. -/
theorem encodeWord_of_decodeWord {w : Word} {i : Instr} (h : decodeWord w = .ok i) : encodeWord i = w := by
  obtain hf | hf | hf | hf | hf | hf | hf | hf | hf | hf | hf | hf | hf | hf | hf | hf := family_cases (fieldF w)
  · exact encodeWord_of_decodeFamily0 (decodeWord_family0 hf ▸ h)
  · cases (decodeWord_family1 hf).symm.trans h; exact (eq_wordAddr hf).symm
  · cases (decodeWord_family2 hf).symm.trans h; exact (eq_wordAddr hf).symm
  · cases (decodeWord_family3 hf).symm.trans h; exact (eq_wordRegImm hf).symm
  · cases (decodeWord_family4 hf).symm.trans h; exact (eq_wordRegImm hf).symm
  · exact encodeWord_of_registerSkip hf (fun _ _ => rfl) (decodeWord_family5 hf ▸ h)
  · cases (decodeWord_family6 hf).symm.trans h; exact (eq_wordRegImm hf).symm
  · cases (decodeWord_family7 hf).symm.trans h; exact (eq_wordRegImm hf).symm
  · exact (encodeWord_of_decodeFamily8 (decodeWord_family8 hf ▸ h)).trans (eq_wordRegReg hf).symm
  · exact encodeWord_of_registerSkip hf (fun _ _ => rfl) (decodeWord_family9 hf ▸ h)
  · cases (decodeWord_familyA hf).symm.trans h; exact (eq_wordAddr hf).symm
  · cases (decodeWord_familyB hf).symm.trans h; exact (eq_wordAddr hf).symm
  · cases (decodeWord_familyC hf).symm.trans h; exact (eq_wordRegImm hf).symm
  · cases (decodeWord_familyD hf).symm.trans h; exact (eq_wordRegReg hf).symm
  · exact (encodeWord_of_decodeFamilyE (decodeWord_familyE hf ▸ h)).trans (eq_wordRegImm hf).symm
  · exact (encodeWord_of_decodeFamilyF (decodeWord_familyF hf ▸ h)).trans (eq_wordRegImm hf).symm

/-- Settles O1: the decoder undoes the encoder (`decodeWord_encodeWord`) and the encoder the decoder
(`encodeWord_of_decodeWord`). -/
theorem encodeAndDecodeAreInverse : Obligations.EncodeAndDecodeAreInverse := by
  refine ⟨fun i rest => ?_, fun w i => encodeWord_of_decodeWord⟩
  rw [encode, decode_wordBytes, decodeWord_encodeWord]

/-! ### The opcode map -/

/-- An instruction's word is selected by its own row, whatever the operands. -/
theorem selects_encodeWord (i : Instr) : i.op.selects (encodeWord i) = true := by
  cases i
  case cls => exact Laws.EncodedRow.cls
  case ret => exact Laws.EncodedRow.ret
  case jp nnn => exact Laws.EncodedRow.jp nnn
  case call nnn => exact Laws.EncodedRow.call nnn
  case sei x nn => exact Laws.EncodedRow.sei x nn
  case snei x nn => exact Laws.EncodedRow.snei x nn
  case se x y => exact Laws.EncodedRow.se x y
  case ldi x nn => exact Laws.EncodedRow.ldi x nn
  case addi x nn => exact Laws.EncodedRow.addi x nn
  case mov x y => exact Laws.EncodedRow.mov x y
  case or x y => exact Laws.EncodedRow.or x y
  case and x y => exact Laws.EncodedRow.and x y
  case xor x y => exact Laws.EncodedRow.xor x y
  case add x y => exact Laws.EncodedRow.add x y
  case sub x y => exact Laws.EncodedRow.sub x y
  case shr x y => exact Laws.EncodedRow.shr x y
  case subn x y => exact Laws.EncodedRow.subn x y
  case shl x y => exact Laws.EncodedRow.shl x y
  case sne x y => exact Laws.EncodedRow.sne x y
  case lda nnn => exact Laws.EncodedRow.lda nnn
  case jp0 nnn => exact Laws.EncodedRow.jp0 nnn
  case rnd x nn => exact Laws.EncodedRow.rnd x nn
  case drw x y n => exact Laws.EncodedRow.drw x y n
  case skp x => exact Laws.EncodedRow.skp x
  case sknp x => exact Laws.EncodedRow.sknp x
  case gdt x => exact Laws.EncodedRow.gdt x
  case wkey x => exact Laws.EncodedRow.wkey x
  case sdt x => exact Laws.EncodedRow.sdt x
  case sst x => exact Laws.EncodedRow.sst x
  case adda x => exact Laws.EncodedRow.adda x
  case font x => exact Laws.EncodedRow.font x
  case bcd x => exact Laws.EncodedRow.bcd x
  case stm x => exact Laws.EncodedRow.stm x
  case ldm x => exact Laws.EncodedRow.ldm x

/-- What the mask of format `REG_REG` leaves of a word determines it up to the two registers. -/
theorem eq_wordRegReg_of_and_F00F {w : Word} {f n : BitVec 4} (h : w &&& 0xF00F = wordRegReg f 0 0 n) :
    wordRegReg f (fieldX w) (fieldY w) n = w := by
  obtain ⟨hfamily, hn⟩ := and_F00F_eq.mp h
  have hw := eq_wordRegReg hfamily
  rw [hn] at hw
  exact hw.symm

/-- What the mask of format `REG` leaves of a word determines it up to the register. -/
theorem eq_wordRegImm_of_and_F0FF {w : Word} {f : BitVec 4} {nn : Byte} (h : w &&& 0xF0FF = wordRegImm f 0 nn) :
    wordRegImm f (fieldX w) nn = w := by
  obtain ⟨hfamily, rfl⟩ := and_F0FF_eq.mp h
  exact (eq_wordRegImm hfamily).symm

/-- A word that a row selects is the word of one of the row's instructions: the fields the row's mask leaves out are
its operands. -/
theorem exists_instr_of_selects {w : Word} {o : Op} (h : o.selects w = true) : ∃ i, encodeWord i = w ∧ i.op = o := by
  have hmask : w &&& o.format.mask = o.pattern := eq_of_beq h
  cases o
  case cls => exact ⟨.cls, hmask.symm.trans BitVec.and_allOnes, rfl⟩
  case ret => exact ⟨.ret, hmask.symm.trans BitVec.and_allOnes, rfl⟩
  case jp => exact ⟨.jp _, (eq_wordAddr (and_F000_eq.mp hmask)).symm, rfl⟩
  case call => exact ⟨.call _, (eq_wordAddr (and_F000_eq.mp hmask)).symm, rfl⟩
  case lda => exact ⟨.lda _, (eq_wordAddr (and_F000_eq.mp hmask)).symm, rfl⟩
  case jp0 => exact ⟨.jp0 _, (eq_wordAddr (and_F000_eq.mp hmask)).symm, rfl⟩
  case sei => exact ⟨.sei _ _, (eq_wordRegImm (and_F000_eq.mp hmask)).symm, rfl⟩
  case snei => exact ⟨.snei _ _, (eq_wordRegImm (and_F000_eq.mp hmask)).symm, rfl⟩
  case ldi => exact ⟨.ldi _ _, (eq_wordRegImm (and_F000_eq.mp hmask)).symm, rfl⟩
  case addi => exact ⟨.addi _ _, (eq_wordRegImm (and_F000_eq.mp hmask)).symm, rfl⟩
  case rnd => exact ⟨.rnd _ _, (eq_wordRegImm (and_F000_eq.mp hmask)).symm, rfl⟩
  case drw => exact ⟨.drw _ _ _, (eq_wordRegReg (and_F000_eq.mp hmask)).symm, rfl⟩
  case se => exact ⟨.se _ _, eq_wordRegReg_of_and_F00F hmask, rfl⟩
  case mov => exact ⟨.mov _ _, eq_wordRegReg_of_and_F00F hmask, rfl⟩
  case or => exact ⟨.or _ _, eq_wordRegReg_of_and_F00F hmask, rfl⟩
  case and => exact ⟨.and _ _, eq_wordRegReg_of_and_F00F hmask, rfl⟩
  case xor => exact ⟨.xor _ _, eq_wordRegReg_of_and_F00F hmask, rfl⟩
  case add => exact ⟨.add _ _, eq_wordRegReg_of_and_F00F hmask, rfl⟩
  case sub => exact ⟨.sub _ _, eq_wordRegReg_of_and_F00F hmask, rfl⟩
  case shr => exact ⟨.shr _ _, eq_wordRegReg_of_and_F00F hmask, rfl⟩
  case subn => exact ⟨.subn _ _, eq_wordRegReg_of_and_F00F hmask, rfl⟩
  case shl => exact ⟨.shl _ _, eq_wordRegReg_of_and_F00F hmask, rfl⟩
  case sne => exact ⟨.sne _ _, eq_wordRegReg_of_and_F00F hmask, rfl⟩
  case skp => exact ⟨.skp _, eq_wordRegImm_of_and_F0FF hmask, rfl⟩
  case sknp => exact ⟨.sknp _, eq_wordRegImm_of_and_F0FF hmask, rfl⟩
  case gdt => exact ⟨.gdt _, eq_wordRegImm_of_and_F0FF hmask, rfl⟩
  case wkey => exact ⟨.wkey _, eq_wordRegImm_of_and_F0FF hmask, rfl⟩
  case sdt => exact ⟨.sdt _, eq_wordRegImm_of_and_F0FF hmask, rfl⟩
  case sst => exact ⟨.sst _, eq_wordRegImm_of_and_F0FF hmask, rfl⟩
  case adda => exact ⟨.adda _, eq_wordRegImm_of_and_F0FF hmask, rfl⟩
  case font => exact ⟨.font _, eq_wordRegImm_of_and_F0FF hmask, rfl⟩
  case bcd => exact ⟨.bcd _, eq_wordRegImm_of_and_F0FF hmask, rfl⟩
  case stm => exact ⟨.stm _, eq_wordRegImm_of_and_F0FF hmask, rfl⟩
  case ldm => exact ⟨.ldm _, eq_wordRegImm_of_and_F0FF hmask, rfl⟩

/-- A row selects exactly the words that decode to one of its instructions. -/
theorem selects_iff_decodeWord {w : Word} {o : Op} : o.selects w = true ↔ ∃ i, decodeWord w = .ok i ∧ i.op = o := by
  constructor
  · intro h
    obtain ⟨i, rfl, hop⟩ := exists_instr_of_selects h
    exact ⟨i, decodeWord_encodeWord i, hop⟩
  · rintro ⟨i, hdecode, rfl⟩
    exact encodeWord_of_decodeWord hdecode ▸ selects_encodeWord i

/-- Settles O2: a row selects what decodes to it (`selects_iff_decodeWord`), and a word decodes to one instruction. -/
theorem opcodeMapSelectsDecodedRow : Obligations.OpcodeMapSelectsDecodedRow := by
  refine ⟨fun w o => selects_iff_decodeWord, fun w o p ho hp => ?_⟩
  obtain ⟨i, hi, rfl⟩ := selects_iff_decodeWord.mp ho
  obtain ⟨j, hj, rfl⟩ := selects_iff_decodeWord.mp hp
  cases hi.symm.trans hj
  rfl

/-! ### The illegal encodings -/

theorem decodeFamily0_refuses {w : Word} : (∃ e, decodeFamily0 w = .error e) ↔ w ≠ 0x00E0 ∧ w ≠ 0x00EE := by
  unfold decodeFamily0
  split_ifs <;> simp_all

theorem decodeFamily8_refuses {x y : Reg} {n : Rows} :
    (∃ e, decodeFamily8 x y n = .error e) ↔ n.val ∈ [0x8, 0x9, 0xA, 0xB, 0xC, 0xD, 0xF] := by
  fin_cases n <;> simp [decodeFamily8]

theorem decodeFamilyE_refuses {x : Reg} {nn : Byte} :
    (∃ e, decodeFamilyE x nn = .error e) ↔ nn.toNat ∉ [0x9E, 0xA1] := by
  unfold decodeFamilyE
  split_ifs <;> simp_all [← BitVec.toNat_inj]

theorem decodeFamilyF_refuses {x : Reg} {nn : Byte} :
    (∃ e, decodeFamilyF x nn = .error e) ↔
      nn.toNat ∉ [0x07, 0x0A, 0x15, 0x18, 0x1E, 0x29, 0x33, 0x55, 0x65] := by
  unfold decodeFamilyF
  split_ifs <;> simp_all [← BitVec.toNat_inj]

/-- A register skip is refused exactly when its last nibble is not zero (families 5 and 9). -/
theorem registerSkip_refuses {n : Rows} {i : Instr} {e : DecodeError} :
    (∃ e', (if n = 0 then .ok i else .error e) = Except.error e') ↔ n ≠ 0 := by
  split_ifs <;> simp_all

/-- Settles O3: R64 branches on the family, so the table of R68 is read off family by family. -/
theorem illegalEncodingsByFamily : Obligations.IllegalEncodingsByFamily := by
  intro w
  obtain hf | hf | hf | hf | hf | hf | hf | hf | hf | hf | hf | hf | hf | hf | hf | hf := family_cases (fieldF w)
  · simp [hf, decodeWord_family0 hf, decodeFamily0_refuses]
  · simp [hf, decodeWord_family1 hf]
  · simp [hf, decodeWord_family2 hf]
  · simp [hf, decodeWord_family3 hf]
  · simp [hf, decodeWord_family4 hf]
  · rw [decodeWord_family5 hf, registerSkip_refuses]; simp [hf]
  · simp [hf, decodeWord_family6 hf]
  · simp [hf, decodeWord_family7 hf]
  · rw [decodeWord_family8 hf, decodeFamily8_refuses]; simp [hf]
  · rw [decodeWord_family9 hf, registerSkip_refuses]; simp [hf]
  · simp [hf, decodeWord_familyA hf]
  · simp [hf, decodeWord_familyB hf]
  · simp [hf, decodeWord_familyC hf]
  · simp [hf, decodeWord_familyD hf]
  · rw [decodeWord_familyE hf, decodeFamilyE_refuses]; simp [hf]
  · rw [decodeWord_familyF hf, decodeFamilyF_refuses]; simp [hf]

/-- Settles O4: each word's bytes decode by evaluation. -/
theorem sampleWordsDecode : Obligations.SampleWordsDecode := by
  unfold Obligations.SampleWordsDecode
  decide

/-! ### Written lines -/

/-- A register or row count written out fits its position and assembles back. -/
@[simp] theorem fits_reg (x : Reg) : (Operand.reg x.val).fits .reg = true := decide_eq_true x.isLt

@[simp] theorem fits_rows (n : Rows) : (Operand.num n.val).fits .n = true := decide_eq_true n.isLt

@[simp] theorem fits_nn (nn : Byte) : (Operand.num nn.toNat).fits .nn = true := decide_eq_true nn.isLt

@[simp] theorem fits_nnn (nnn : Lit12) : (Operand.num nnn.toNat).fits .nnn = true := decide_eq_true nnn.isLt

@[simp] theorem toFin16_reg (x : Reg) : (Operand.reg x.val).toFin16 = x := Fin.ext (Nat.mod_eq_of_lt x.isLt)

@[simp] theorem toFin16_num (n : Rows) : (Operand.num n.val).toFin16 = n := Fin.ext (Nat.mod_eq_of_lt n.isLt)

@[simp] theorem toLit_num {w : Nat} (v : BitVec w) : (Operand.num v.toNat).toLit w = v := by simp [Operand.toLit]

theorem fitsAll_nil {os : List Operand} : fitsAll [] os = true ↔ os = [] := by
  cases os <;> simp [fitsAll]

theorem fitsAll_cons {k : OperandKind} {ks : List OperandKind} {os : List Operand} :
    fitsAll (k :: ks) os = true ↔ ∃ a as, os = a :: as ∧ a.fits k = true ∧ fitsAll ks as = true := by
  cases os <;> simp [fitsAll]

/-- The line an instruction is written as passes the checks: a field's value is within the field's width. -/
theorem wellFormed_instr (i : Instr) : i.wellFormed = true := by
  cases i <;>
    simp [Instr.wellFormed, Instr.written, Line.wellFormed, Line.full, Instr.op, Instr.operands, Op.format,
      Format.operandKinds, fitsAll]

/-- The line an instruction is written as names that instruction. -/
theorem instr_written (i : Instr) : i.written.instr = some i := by
  cases i <;>
    simp [Instr.written, Line.instr, Line.full, Instr.op, Instr.operands, Op.mkAddr, Op.mkReg, Op.mkRegImm,
      Op.mkRegReg]

/-- The checks leave as many operands as the mnemonic's format has positions, and for that many every mnemonic has its
instruction. -/
theorem isSome_instr_of_wellFormed {l : Line} (h : l.wellFormed = true) : l.instr.isSome = true := by
  unfold Line.wellFormed at h
  unfold Line.instr
  generalize l.full.operands = os at h ⊢
  generalize l.op = o at h ⊢
  cases o
  case cls | ret => cases fitsAll_nil.mp h; rfl
  case jp | call | lda | jp0 | skp | sknp | gdt | wkey | sdt | sst | adda | font | bcd | stm | ldm =>
    obtain ⟨a, _, rfl, -, h⟩ := fitsAll_cons.mp h
    cases fitsAll_nil.mp h
    rfl
  case sei | snei | ldi | addi | rnd | se | mov | or | and | xor | add | sub | shr | subn | shl | sne =>
    obtain ⟨a, _, rfl, -, h⟩ := fitsAll_cons.mp h
    obtain ⟨b, _, rfl, -, h⟩ := fitsAll_cons.mp h
    cases fitsAll_nil.mp h
    rfl
  case drw =>
    obtain ⟨a, _, rfl, -, h⟩ := fitsAll_cons.mp h
    obtain ⟨b, _, rfl, -, h⟩ := fitsAll_cons.mp h
    obtain ⟨c, _, rfl, -, h⟩ := fitsAll_cons.mp h
    cases fitsAll_nil.mp h
    rfl

/-- Settles O5: a written instruction is well formed and names itself (`wellFormed_instr`, `instr_written`), and a
well-formed line names some instruction (`isSome_instr_of_wellFormed`). -/
theorem writtenInstructionAssembles : Obligations.WrittenInstructionAssembles := by
  refine ⟨fun i => ⟨wellFormed_instr i, (if_pos (wellFormed_instr i)).trans (instr_written i)⟩, fun l => ?_⟩
  unfold Line.assemble
  constructor
  · intro h
    by_contra hill
    simp [hill] at h
  · intro h
    rw [if_pos h]
    exact isSome_instr_of_wellFormed h

end Sys2Proof
end

section
/-! Proofs.Execute: what the execute phase can answer, said once for all 34 instructions (40_step_cycle.md R84 to R87):
the fault an instruction raises, or the frame in which it completes. -/

namespace Sys2Proof.Machine

/-! ### What each instruction answers, where no section before has said it -/

theorem exec_cls (s : State) : exec .cls s = .next { s with fb := Screen.blank } := rfl

theorem exec_ret (s : State) : exec .ret s = execRet s := rfl

theorem exec_sub (x y : Reg) (s : State) : exec (.sub x y) s = execSub x y s := rfl

theorem exec_subn (x y : Reg) (s : State) : exec (.subn x y) s = execSubn x y s := rfl

theorem exec_shr (x y : Reg) (s : State) : exec (.shr x y) s = execShr x y s := rfl

theorem exec_shl (x y : Reg) (s : State) : exec (.shl x y) s = execShl x y s := rfl

theorem exec_jp0 (nnn : Lit12) (s : State) :
    exec (.jp0 nnn) s = .next (s.setPc (wide (s.getV 0) + addrLit nnn)) := rfl

theorem exec_rnd (x : Reg) (nn : Byte) (s : State) :
    exec (.rnd x nn) s = .next (s.drawByte.2.setV x (Config.randomByte s.draws &&& nn)) := rfl

theorem exec_drw (x y : Reg) (n : Rows) (s : State) : exec (.drw x y n) s = execDrw x y n s := rfl

theorem exec_skp (x : Reg) (s : State) : exec (.skp x) s = execSkp x s := rfl

theorem exec_sknp (x : Reg) (s : State) : exec (.sknp x) s = execSknp x s := rfl

theorem exec_wkey (x : Reg) (s : State) : exec (.wkey x) s = execWkey x s := rfl

theorem exec_sst (x : Reg) (s : State) : exec (.sst x) s = .next { s with st := s.getV x } := rfl

theorem exec_adda (x : Reg) (s : State) : exec (.adda x) s = .next (addIndex s.settings.fx1eElse x s) := rfl

theorem exec_bcd (x : Reg) (s : State) : exec (.bcd x) s = execBcd x s := rfl

theorem exec_stm (x : Reg) (s : State) : exec (.stm x) s = execStm x s := rfl

theorem exec_ldm (x : Reg) (s : State) : exec (.ldm x) s = execLdm x s := rfl

/-! ### Frames of the updates that have none yet -/

@[simp] theorem skipIf_fault (s : State) (c : Bool) : (s.skipIf c).fault = s.fault := by
  rw [skipIf_eq_setPc, setPc_fault]

@[simp] theorem skipIf_mem (s : State) (c : Bool) : (s.skipIf c).mem = s.mem := by
  rw [skipIf_eq_setPc, setPc_mem]

theorem sameExcept_withFb (s : State) (f : Screen) : SameExcept [.fb] s { s with fb := f } := by
  constructor
  case fb => intro h; simp at h
  all_goals intros; rfl

theorem sameExcept_withSt (s : State) (b : Byte) : SameExcept [.st] s { s with st := b } := by
  constructor
  case st => intro h; simp at h
  all_goals intros; rfl

theorem sameExcept_drawByte (s : State) : SameExcept [.draws] s s.drawByte.2 := by
  constructor
  case draws => intro h; simp at h
  all_goals intros; rfl

theorem sameExcept_drawByte_setV (s : State) (x : Reg) (b : Byte) :
    SameExcept [.V x, .draws] s (s.drawByte.2.setV x b) :=
  ((sameExcept_drawByte s).mono (by simp)).trans ((sameExcept_setV _ x b).mono (by simp))

theorem sameExcept_drawSprite (s : State) (p : Config.DrawXPolicy) (x y : Reg) (rows : List Byte) :
    SameExcept [.V VF, .fb] s (s.drawSprite p x y rows) :=
  ((sameExcept_withFb s _).mono (by simp)).trans ((sameExcept_setFlag _ _).mono (by simp))

theorem sameExcept_pop_setPc {s t : State} {w w' : Word} (hpop : s.pop = some (w, t)) :
    SameExcept [.pc, .sp] s (t.setPc w') :=
  ((sameExcept_pop hpop).mono (by simp)).trans ((sameExcept_setPc t w').mono (by simp))

/-! ### The fault an instruction raises -/

/-- The fault the execution of an instruction raises, if any (R172 to R174): the eight instructions with a check of
their own, and what each looks at. -/
def execFault (i : Instr) (s : State) : Option Fault :=
  match i with
  | .ret => if s.sp.val = 0 then some .stackUnderflow else none
  | .call _ => if s.sp.val = 16 then some .stackOverflow else none
  | .skp x | .sknp x => if (s.getV x).toNat > 0xF then some .invalidOpcode else none
  | .drw _ _ n => if inRange s.dataAddr n.val then none else some .memoryBounds
  | .bcd _ => if inRange s.dataAddr bcdCount then none else some .memoryBounds
  | .stm x | .ldm x => if inRange s.dataAddr (blockCount x) then none else some .memoryBounds
  | _ => none

/-- The checks do not look at pc. -/
@[simp] theorem execFault_setPc (i : Instr) (s : State) (w : Word) : execFault i (s.setPc w) = execFault i s := by
  cases i <;> rfl

/-- An instruction whose check fails latches the fault and writes nothing else (R86). -/
theorem exec_of_execFault {i : Instr} {s : State} {k : Fault} (h : execFault i s = some k) :
    exec i s = .next (s.latch k) := by
  cases i <;> simp only [execFault, reduceCtorEq, Option.ite_none_left_eq_some, Option.ite_none_right_eq_some,
    Option.some.injEq] at h <;> obtain ⟨hcheck, rfl⟩ := h
  case ret => rw [exec_ret, execRet_empty hcheck, raise]
  case call nnn => rw [exec_call, execCall_full hcheck, raise]
  case skp x => rw [exec_skp, execSkp_eq, if_pos hcheck, raise]
  case sknp x => rw [exec_sknp, execSknp_eq, if_pos hcheck, raise]
  case drw x y n => rw [exec_drw, execDrw_eq, if_neg hcheck, raise]
  case bcd x => rw [exec_bcd, execBcd_eq, if_neg hcheck, raise]
  case stm x => rw [exec_stm, execStm_eq, if_neg hcheck, raise]
  case ldm x => rw [exec_ldm, execLdm_eq, if_neg hcheck, raise]

/-! ### The frame in which an instruction completes -/

/-- An instruction that completes has written its parts of the access table and not the latch; one that stores nothing
leaves the list that holds memory as it is. -/
structure Completes (i : Instr) (s t : State) : Prop where
  frame : SameExcept (writes i) s t
  fault : t.fault = s.fault
  mem : stores i = false → t.mem = s.mem

/-- An instruction that answers one skip: what SEI, SNEI, SE, SNE, SKP and SKNP have in common. -/
theorem completes_skipIf {i : Instr} {s : State} (c : Bool) (hw : .pc ∈ writes i) : Completes i s (s.skipIf c) :=
  ⟨(sameExcept_skipIf s c).mono (by simpa using hw), skipIf_fault s c, fun _ => skipIf_mem s c⟩

/-- An instruction whose check passes completes within its parts. -/
theorem exists_completes {i : Instr} {s : State} (h : execFault i s = none) :
    ∃ t, exec i s = .next t ∧ Completes i s t := by
  cases i <;> simp only [execFault, reduceCtorEq, ite_eq_left_iff, ite_eq_right_iff, imp_false, not_not] at h
  case cls => exact ⟨_, exec_cls s, sameExcept_withFb s _, rfl, fun _ => rfl⟩
  case ret =>
    obtain ⟨w, t, hpop⟩ := exists_pop (Nat.pos_of_ne_zero h)
    obtain ⟨-, -, -, ht⟩ := pop_eq_some hpop
    exact ⟨_, (exec_ret s).trans (execRet_pop hpop), (sameExcept_pop_setPc hpop).mono (by simp [writes]),
      congrArg (·.fault) ht, fun _ => congrArg (·.mem) ht⟩
  case jp nnn => exact ⟨_, exec_jp nnn s, sameExcept_setPc s _, rfl, fun _ => rfl⟩
  case call nnn =>
    obtain ⟨t, hpush⟩ := exists_push (s := s) s.pc (by omega)
    obtain ⟨-, -, -, -, ht⟩ := push_eq_some hpush
    exact ⟨_, (exec_call nnn s).trans (execCall_push hpush), (sameExcept_push_setPc hpush _).mono (by simp [writes]),
      congrArg (·.fault) ht, fun _ => congrArg (·.mem) ht⟩
  case sei x nn => exact ⟨_, exec_sei x nn s, completes_skipIf _ (by simp [writes])⟩
  case snei x nn => exact ⟨_, exec_snei x nn s, completes_skipIf _ (by simp [writes])⟩
  case se x y => exact ⟨_, exec_se x y s, completes_skipIf _ (by simp [writes])⟩
  case sne x y => exact ⟨_, exec_sne x y s, completes_skipIf _ (by simp [writes])⟩
  case ldi x nn => exact ⟨_, exec_ldi x nn s, sameExcept_setV s x _, rfl, fun _ => rfl⟩
  case addi x nn => exact ⟨_, exec_addi x nn s, sameExcept_setV s x _, rfl, fun _ => rfl⟩
  case mov x y => exact ⟨_, exec_mov x y s, sameExcept_setV s x _, rfl, fun _ => rfl⟩
  case or x y => exact ⟨_, exec_or x y s, sameExcept_setV_setFlag s x _ _, rfl, fun _ => rfl⟩
  case and x y => exact ⟨_, exec_and x y s, sameExcept_setV_setFlag s x _ _, rfl, fun _ => rfl⟩
  case xor x y => exact ⟨_, exec_xor x y s, sameExcept_setV_setFlag s x _ _, rfl, fun _ => rfl⟩
  case add x y => exact ⟨_, exec_add x y s, sameExcept_setV_setFlag s x _ _, rfl, fun _ => rfl⟩
  case sub x y => exact ⟨_, exec_sub x y s, sameExcept_setFlag_setV s x _ _, rfl, fun _ => rfl⟩
  case shr x y => exact ⟨_, exec_shr x y s, sameExcept_setFlag_setV s x _ _, rfl, fun _ => rfl⟩
  case subn x y => exact ⟨_, exec_subn x y s, sameExcept_setFlag_setV s x _ _, rfl, fun _ => rfl⟩
  case shl x y => exact ⟨_, exec_shl x y s, sameExcept_setFlag_setV s x _ _, rfl, fun _ => rfl⟩
  case lda nnn => exact ⟨_, exec_lda nnn s, sameExcept_setI s _, rfl, fun _ => rfl⟩
  case jp0 nnn => exact ⟨_, exec_jp0 nnn s, sameExcept_setPc s _, rfl, fun _ => rfl⟩
  case rnd x nn => exact ⟨_, exec_rnd x nn s, sameExcept_drawByte_setV s x _, rfl, fun _ => rfl⟩
  case drw x y n =>
    exact ⟨_, (exec_drw x y n s).trans ((execDrw_eq x y n s).trans (if_pos h)),
      (sameExcept_drawSprite s _ x y _).mono (by simp [writes]), rfl, fun _ => rfl⟩
  case skp x =>
    exact ⟨_, (exec_skp x s).trans ((execSkp_eq x s).trans (if_neg h)), completes_skipIf _ (by simp [writes])⟩
  case sknp x =>
    exact ⟨_, (exec_sknp x s).trans ((execSknp_eq x s).trans (if_neg h)), completes_skipIf _ (by simp [writes])⟩
  case gdt x => exact ⟨_, exec_gdt x s, sameExcept_setV s x _, rfl, fun _ => rfl⟩
  case wkey x =>
    cases hkey : lowestKey s.keys with
    | none =>
      exact ⟨_, (exec_wkey x s).trans (execWkey_none (lowestKey_eq_none.mp hkey)),
        (sameExcept_setPc s _).mono (by simp [writes]), rfl, fun _ => rfl⟩
    | some k =>
      exact ⟨_, (exec_wkey x s).trans (execWkey_some hkey), (sameExcept_setV s x _).mono (by simp [writes]), rfl,
        fun _ => rfl⟩
  case sdt x => exact ⟨_, exec_sdt x s, sameExcept_withDt s _, rfl, fun _ => rfl⟩
  case sst x => exact ⟨_, exec_sst x s, sameExcept_withSt s _, rfl, fun _ => rfl⟩
  case adda x => exact ⟨_, exec_adda x s, sameExcept_addIndex _ x s, rfl, fun _ => rfl⟩
  case font x => exact ⟨_, exec_font x s, sameExcept_setI s _, rfl, fun _ => rfl⟩
  case bcd x =>
    exact ⟨_, (exec_bcd x s).trans ((execBcd_eq x s).trans (if_pos h)),
      (sameExcept_write s _ _).mono (by simp [writes]), rfl, fun hstores => by cases hstores⟩
  case stm x =>
    exact ⟨_, (exec_stm x s).trans ((execStm_eq x s).trans (if_pos h)),
      (sameExcept_write s _ _).mono (by simp [writes]), rfl, fun hstores => by cases hstores⟩
  case ldm x =>
    exact ⟨_, (exec_ldm x s).trans ((execLdm_eq x s).trans (if_pos h)),
      (sameExcept_setRegs s x _ (length_readBytes _ _ _)).mono (by simp +contextual [writes]), by simp, by simp⟩

/-! ### The two answers of the execute phase -/

/-- Everything the execution of an instruction can answer: the state with the fault of its check latched, or the
state it completes in. -/
theorem exec_cases {i : Instr} {s t : State} (h : exec i s = .next t) :
    (∃ k, execFault i s = some k ∧ t = s.latch k) ∨ (execFault i s = none ∧ Completes i s t) := by
  cases hfault : execFault i s with
  | some k => exact .inl ⟨k, rfl, Host.Outcome.next.inj (h.symm.trans (exec_of_execFault hfault))⟩
  | none =>
    obtain ⟨u, hexec, hcompletes⟩ := exists_completes hfault
    cases hexec.symm.trans h
    exact .inr ⟨rfl, hcompletes⟩

/-- No instruction ends in a fault or a refusal of the host's interface. -/
theorem exists_exec (i : Instr) (s : State) : ∃ t, exec i s = .next t := by
  cases hfault : execFault i s with
  | some k => exact ⟨_, exec_of_execFault hfault⟩
  | none => exact (exists_completes hfault).imp fun _ => And.left

/-- An instruction leaves the latch as it was or sets it to the fault of its check. -/
theorem exec_fault {i : Instr} {s t : State} (h : exec i s = .next t) : t.fault = (execFault i s).or s.fault := by
  obtain ⟨k, hk, rfl⟩ | ⟨hnone, hcompletes⟩ := exec_cases h
  · rw [hk]; rfl
  · rw [hnone]; exact hcompletes.fault

/-- An instruction that can raise a fault has the latch among what it may write (R178). -/
theorem fault_mem_writes {i : Instr} {s : State} {k : Fault} (h : execFault i s = some k) : Part.fault ∈ writes i := by
  cases i
  case ret | call | drw | skp | sknp | bcd | stm | ldm => simp [writes]
  all_goals cases h

/-- The frame of every instruction, faulting or not (R87). -/
theorem exec_frame {i : Instr} {s t : State} (h : exec i s = .next t) : SameExcept (writes i) s t := by
  obtain ⟨k, hk, rfl⟩ | ⟨-, hcompletes⟩ := exec_cases h
  · exact (sameExcept_latch s k).mono (by simpa using fault_mem_writes hk)
  · exact hcompletes.frame

/-- An instruction that stores nothing leaves the list that holds memory as it is. -/
theorem exec_mem {i : Instr} {s t : State} (h : exec i s = .next t) (hstores : stores i = false) : t.mem = s.mem := by
  obtain ⟨k, -, rfl⟩ | ⟨-, hcompletes⟩ := exec_cases h
  · rfl
  · exact hcompletes.mem hstores

/-- BCD and STM, the instructions that store, write exactly the bytes they name, or nothing. -/
theorem exec_stores {i : Instr} {s t : State} (h : exec i s = .next t) (hstores : stores i = true) :
    (∃ k, t = s.latch k) ∨ inRange (dataRange i s).1 (dataRange i s).2 = true ∧
      ∃ bs : List Byte, bs.length = (dataRange i s).2 ∧ t = s.writeBytes (dataRange i s).1 bs := by
  obtain ⟨k, -, rfl⟩ | ⟨hnone, -⟩ := exec_cases h
  · exact .inl ⟨k, rfl⟩
  cases i
  case bcd x =>
    have hrange : inRange s.dataAddr bcdCount = true := by simpa [execFault] using hnone
    rw [exec_bcd, execBcd_eq, if_pos hrange] at h
    exact .inr ⟨hrange, _, length_bcdDigits _, (Host.Outcome.next.inj h).symm⟩
  case stm x =>
    have hrange : inRange s.dataAddr (blockCount x) = true := by simpa [execFault] using hnone
    rw [exec_stm, execStm_eq, if_pos hrange] at h
    exact .inr ⟨hrange, _, length_regBytes s x, (Host.Outcome.next.inj h).symm⟩
  all_goals cases hstores

/-- Every byte outside the range an instruction stores to reads as before. -/
theorem exec_memSameOutside {i : Instr} {s t : State} (h : exec i s = .next t) :
    MemSameOutside (dataRange i s).1 (if stores i = true then (dataRange i s).2 else 0) s t := by
  cases hstores : stores i with
  | false =>
    intro a _
    rw [State.readByte, State.readByte, exec_mem h hstores, State.font, (exec_frame h).settings]
  | true =>
    obtain ⟨k, rfl⟩ | ⟨-, bs, hlen, rfl⟩ := exec_stores h hstores
    · exact fun _ _ => rfl
    · rw [if_pos rfl, ← hlen]
      exact memSameOutside_write s _ bs

/-! ### What the access table lets no instruction write, or only one -/

theorem keys_notMem_writes (i : Instr) : Part.keys ∉ writes i := by
  cases i <;> simp [writes, mem_partsUpTo]

theorem prev_notMem_writes (i : Instr) : Part.prev ∉ writes i := by
  cases i <;> simp [writes, mem_partsUpTo]

theorem schedule_notMem_writes (i : Instr) : Part.schedule ∉ writes i := by
  cases i <;> simp [writes, mem_partsUpTo]

theorem dt_mem_writes {i : Instr} : Part.dt ∈ writes i ↔ ∃ x, i = .sdt x := by
  cases i <;> simp [writes, mem_partsUpTo]

theorem st_mem_writes {i : Instr} : Part.st ∈ writes i ↔ ∃ x, i = .sst x := by
  cases i <;> simp [writes, mem_partsUpTo]

/-- Settles O13: the frame of the access table (`exec_frame`) and the range of a store (`exec_memSameOutside`). -/
theorem instructionWritesOnlyItsParts : Obligations.InstructionWritesOnlyItsParts :=
  fun _ _ _ h => ⟨exec_frame h, exec_memSameOutside h⟩

end Sys2Proof.Machine
end

section
/-! Proofs.StepFaults: one move of the machine (40_step_cycle.md R80 to R88): what a step runs, which fault it raises,
and what it leaves unchanged (60_exceptions.md R170 to R176). -/

namespace Sys2Proof.Machine

/-! ### What a step runs -/

/-- Settles O6: the two bytes at pc decode to `i`, so `i` is the next instruction (`interpret_executed`). -/
theorem stepRunsDecodedInstruction : Obligations.StepRunsDecodedInstruction := by
  intro s i hsched hfault hpc hdecode
  exact (step_nil hsched).trans (interpret_executed hfault (nextInstr_eq_some.mpr ⟨hpc, hdecode⟩))

/-- Where the fetch leaves memory, the highest address of the access is that of the second byte (R81, R173). -/
theorem faultAddress_of_fetch {s : State} (hpc : s.pc.toNat + 1 > 0xFFF) : faultAddress s = s.pc.toNat + 1 := by
  rw [faultAddress, fetch_of_gt hpc]

/-- Settles O7: the step latches MemoryBounds and nothing else (`interpret_fetchFault`). -/
theorem fetchBeyondMemoryFaults : Obligations.FetchBeyondMemoryFaults := by
  intro s hsched hfault hpc
  refine ⟨_, (step_nil hsched).trans (interpret_fetchFault hfault hpc), latch_fault s _, sameExcept_latch s _, ?_⟩
  rw [report_step_of_fault hfault (latch_fault s _), stepInfo, faultAddress_of_fetch hpc]

/-- Settles O9, by the law `interpret_halted`. -/
theorem haltedBlockIgnoresStep : Obligations.HaltedBlockIgnoresStep :=
  fun _ hsched hfault => (step_nil hsched).trans (interpret_halted hfault)

/-! ### The state a faulting step leaves -/

/-- Settles O10: each of the ways a running block can step (`interpret_cases`) that latches a fault writes at most pc
beside the latch. -/
theorem faultingStepWritesOnlyPcAndLatch : Obligations.FaultingStepWritesOnlyPcAndLatch := by
  intro s t hsched hfault hstep hfaulted
  rw [step_nil hsched] at hstep
  cases interpret_cases hstep with
  | halted h => exact absurd hfault h
  | fetchFault _ hpc => exact ⟨(sameExcept_latch s _).mono (by simp), (if_pos hpc).symm⟩
  | illegal _ hpc _ => exact ⟨sameExcept_setPc_latch s _ _, (if_neg (by omega)).symm⟩
  | executed i _ hnext hexec =>
    obtain ⟨hpc, -⟩ := nextInstr_eq_some.mp hnext
    obtain ⟨k, -, rfl⟩ | ⟨-, hcompletes⟩ := exec_cases hexec
    · exact ⟨sameExcept_setPc_latch s _ _, (if_neg (by omega)).symm⟩
    · exact absurd (hcompletes.fault.trans hfault) hfaulted

/-! ### Which fault an instruction raises -/

theorem execFault_eq_stackOverflow {i : Instr} {s : State} :
    execFault i s = some .stackOverflow ↔ s.sp.val = 16 ∧ ∃ nnn, i = .call nnn := by
  cases i <;> simp [execFault]

theorem execFault_eq_stackUnderflow {i : Instr} {s : State} :
    execFault i s = some .stackUnderflow ↔ s.sp.val = 0 ∧ i = .ret := by
  cases i <;> simp [execFault]

theorem execFault_eq_invalidOpcode {i : Instr} {s : State} :
    execFault i s = some .invalidOpcode ↔ ∃ x, (i = .skp x ∨ i = .sknp x) ∧ (s.getV x).toNat > 0xF := by
  cases i <;> simp [execFault]

/-- MemoryBounds is raised where the range an instruction names is not empty and ends above the last address. -/
theorem execFault_eq_memoryBounds {i : Instr} {s : State} :
    execFault i s = some .memoryBounds ↔
      (dataRange i s).2 > 0 ∧ (dataRange i s).1 + (dataRange i s).2 - 1 > 0xFFF := by
  have hrange (a n : Nat) : ¬ inRange a n = true ↔ n > 0 ∧ a + n - 1 > 0xFFF := by rw [inRange_iff]; omega
  cases i
  case drw | bcd | stm | ldm =>
    simp only [execFault, dataRange, Option.ite_none_left_eq_some, and_true, hrange]
  all_goals simp [execFault, dataRange]

theorem execFault_ne_loadError (i : Instr) (s : State) : execFault i s ≠ some .loadError := by
  cases i <;> simp [execFault]

/-- A fetch that leaves memory finds no instruction. -/
theorem nextInstr_of_fetch {s : State} (hpc : s.pc.toNat + 1 > 0xFFF) : s.nextInstr = none := by
  rw [State.nextInstr, fetch_of_gt hpc]

/-- Settles O11: a fetch fault latches MemoryBounds, an illegal word InvalidOpcode, and an instruction the fault of its
own check (`exec_fault`), whose conditions stand above. -/
theorem stepFaultConditions : Obligations.StepFaultConditions := by
  intro s t hsched hfault hstep
  rw [step_nil hsched] at hstep
  cases interpret_cases hstep with
  | halted h => exact absurd hfault h
  | fetchFault _ hpc => simp [nextInstr_of_fetch hpc]; omega
  | illegal _ hpc hnext => simp [hnext]; omega
  | executed i _ hnext hexec =>
    obtain ⟨hpc, -⟩ := nextInstr_eq_some.mp hnext
    have hlatch : t.fault = execFault i s := by simpa [hfault] using exec_fault hexec
    rw [hlatch, execFault_eq_stackOverflow, execFault_eq_stackUnderflow, execFault_eq_invalidOpcode,
      execFault_eq_memoryBounds]
    simp [hnext, execFault_ne_loadError, Nat.not_lt.mpr hpc]

/-! ### Every event and every move answers a next state -/

/-- A `Step` answers a next state: each of its ways to go on does. -/
theorem exists_interpret (s : State) : ∃ t, s.interpret = .next t := by
  by_cases hfault : s.fault = none
  · by_cases hpc : s.pc.toNat + 1 > 0xFFF
    · exact ⟨_, interpret_fetchFault hfault hpc⟩
    · cases hdecode : decodeWord (s.readByte s.pc.toNat ++ s.readByte (s.pc.toNat + 1)) with
      | error e => exact ⟨_, interpret_illegal hfault (by omega) hdecode⟩
      | ok i =>
        rw [interpret_executed hfault (nextInstr_eq_some.mpr ⟨by omega, hdecode⟩)]
        exact exists_exec i _
  · exact ⟨s, interpret_halted hfault⟩

/-- An event answers a next state (R180). -/
theorem exists_deliver (s : State) (e : Event) : ∃ t, s.deliver e = .next t := by
  cases e with
  | step => exact exists_interpret s
  | _ => exact ⟨_, rfl⟩

theorem interpret_settings {s t : State} (h : s.interpret = .next t) : t.settings = s.settings := by
  cases interpret_cases h with
  | executed i _ _ hexec => exact (exec_frame hexec).settings
  | _ => rfl

theorem deliver_settings {s t : State} {e : Event} (h : s.deliver e = .next t) : t.settings = s.settings := by
  cases e with
  | step => exact interpret_settings h
  | load bytes => cases h; exact load_settings s bytes
  | _ => cases h; rfl

/-- One move is the delivery of the oldest pending event, or of `Step` where none is pending (R182). -/
theorem step_eq_deliver (s : State) :
    step s = State.deliver { s with schedule := s.schedule.tail } (s.schedule.head?.getD .step) := by
  cases hsched : s.schedule with
  | nil =>
    have hself : s = { s with schedule := [] } := by rw [← hsched]
    exact (step_nil hsched).trans (congrArg State.interpret hself)
  | cons e rest => rw [step_cons hsched]; rfl

/-- Settles O12: an instruction answers a next state within its frame (`exists_exec`, `exec_frame`), and a move is the
delivery of one event (`step_eq_deliver`). -/
theorem everyStepAnswersNext : Obligations.EveryStepAnswersNext := by
  refine ⟨fun i s => ?_, fun s => ?_⟩
  · exact (exists_exec i s).imp fun t h => ⟨h, (exec_frame h).settings⟩
  · rw [step_eq_deliver]
    exact (exists_deliver _ _).imp fun t h => ⟨h, (deliver_settings h :)⟩

/-! ### What a step leaves to the other agents -/

/-- Every part but pc that a running block's `Step` changes is in the access table's row of the instruction at pc; where
none is executed, only pc and the latch are written. -/
theorem interpret_frame {s t : State} (h : s.interpret = .next t) :
    SameExcept [.pc, .fault] s t ∨
      ∃ i, s.nextInstr = some i ∧ exec i (s.setPc (s.pc + 2)) = .next t ∧ SameExcept (.pc :: writes i) s t := by
  cases interpret_cases h with
  | halted _ => exact .inl (SameExcept.refl _ s)
  | fetchFault _ _ => exact .inl ((sameExcept_latch s _).mono (by simp))
  | illegal _ _ _ => exact .inl (sameExcept_setPc_latch s _ _)
  | executed i _ hnext hexec =>
    exact .inr ⟨i, hnext, hexec,
      ((sameExcept_setPc s _).mono (by simp)).trans ((exec_frame hexec).mono fun _ => List.mem_cons_of_mem _)⟩

/-- The interpreter never writes the key mask (R26). -/
theorem interpret_keys {s t : State} (h : s.interpret = .next t) : t.keys = s.keys := by
  obtain hframe | ⟨i, -, -, hframe⟩ := interpret_frame h
  · exact hframe.keys (by simp)
  · exact hframe.keys (by simp [keys_notMem_writes])

/-- The interpreter never writes the previous frame (R26). -/
theorem interpret_prev {s t : State} (h : s.interpret = .next t) : t.prev = s.prev := by
  obtain hframe | ⟨i, -, -, hframe⟩ := interpret_frame h
  · exact hframe.prev (by simp)
  · exact hframe.prev (by simp [prev_notMem_writes])

/-- A step that changes the delay timer runs SDT (R161). -/
theorem nextInstr_sdt_of_dt_ne {s t : State} (h : s.interpret = .next t) (hdt : t.dt ≠ s.dt) :
    ∃ x, s.nextInstr = some (.sdt x) := by
  obtain hframe | ⟨i, hnext, -, hframe⟩ := interpret_frame h
  · exact absurd (hframe.dt (by simp)) hdt
  · obtain ⟨x, rfl⟩ : ∃ x, i = .sdt x := dt_mem_writes.mp (by simpa using fun hi => hdt (hframe.dt hi))
    exact ⟨x, hnext⟩

/-- A step that changes the sound timer runs SST (R162). -/
theorem nextInstr_sst_of_st_ne {s t : State} (h : s.interpret = .next t) (hst : t.st ≠ s.st) :
    ∃ x, s.nextInstr = some (.sst x) := by
  obtain hframe | ⟨i, hnext, -, hframe⟩ := interpret_frame h
  · exact absurd (hframe.st (by simp)) hst
  · obtain ⟨x, rfl⟩ : ∃ x, i = .sst x := st_mem_writes.mp (by simpa using fun hi => hst (hframe.st hi))
    exact ⟨x, hnext⟩

/-- No address is inside an empty range. -/
theorem outside_zero (base a : Nat) : outside base 0 a := Nat.lt_or_ge a base

/-- A step that changes a byte of memory stores to a range that holds it (R40). -/
theorem nextInstr_stores_of_readByte_ne {s t : State} (h : s.interpret = .next t) {a : Nat}
    (ha : t.readByte a ≠ s.readByte a) :
    ∃ i, s.nextInstr = some i ∧ stores i = true ∧ ¬ outside (dataRange i s).1 (dataRange i s).2 a := by
  obtain hframe | ⟨i, hnext, hexec, -⟩ := interpret_frame h
  · exact absurd (hframe.mem (by simp) a) ha
  · have hsame := exec_memSameOutside hexec
    rw [dataRange_setPc] at hsame
    cases hstores : stores i with
    | false =>
      rw [hstores] at hsame
      exact absurd (hsame a (outside_zero _ a)) ha
    | true =>
      rw [hstores, if_pos rfl] at hsame
      exact ⟨i, hnext, hstores, fun hout => ha (hsame a hout)⟩

/-- Settles O14: what a step writes is pc, the latch and the parts of the instruction at pc (`interpret_frame`). -/
theorem stepLeavesOtherAgentsState : Obligations.StepLeavesOtherAgentsState := by
  intro s t hsched hstep
  rw [step_nil hsched] at hstep
  exact ⟨interpret_keys hstep, interpret_prev hstep, nextInstr_sdt_of_dt_ne hstep, nextInstr_sst_of_st_ne hstep,
    fun a => nextInstr_stores_of_readByte_ne hstep⟩

end Sys2Proof.Machine
end

section
/-! Proofs.Reset: the state after reset and after a load (10_state.md R29, 70_reset_and_hazards.md R200 to R203). -/

namespace Sys2Proof.Machine

/-! ### Reset -/

/-- The reset image holds the font from 0x050 on (R43). -/
theorem resetImage_font (font : Config.Font) {j : Nat} (h : j < 80) : resetImage font (0x050 + j) = font[j] := by
  have hrange : 0x050 ≤ 0x050 + j ∧ 0x050 + j < 0x0A0 := by omega
  rw [resetImage, if_pos hrange, Nat.add_sub_cancel_left]
  simp [h]

/-- Every other byte of the reset image is zero (R41). -/
theorem resetImage_outside (font : Config.Font) {a : Nat} (h : a < 0x050 ∨ 0x0A0 ≤ a) : resetImage font a = 0 :=
  if_neg fun hrange : 0x050 ≤ a ∧ a < 0x0A0 => by omega

theorem getV_resetWith (c : Config.Settings) (r : Reg) : (State.resetWith c).getV r = 0 := by
  simp [State.getV, State.resetWith]

theorem stackEntry_resetWith (c : Config.Settings) (k : Nat) : (State.resetWith c).stackEntry k = 0 := by
  by_cases hk : k < 16 <;> simp [State.stackEntry, State.resetWith, hk]

/-- Settles O53: the registers, the stack and the screens are blank arrays, memory reads as the reset image; the
defaults are read off. -/
theorem resetValues : Obligations.ResetValues := by
  refine ⟨?_, rfl, rfl, rfl, rfl⟩
  rintro c _ rfl
  exact ⟨getV_resetWith c, rfl, rfl, rfl, stackEntry_resetWith c, rfl, rfl, rfl, rfl, pixel_blank, pixel_blank,
    decide_eq_false fun hne => hne rfl, rfl, rfl, fun j => resetImage_font c.font, fun a => resetImage_outside c.font⟩

/-! ### Load -/

/-- The memory of a successful load is that of the reset machine with the program written at 0x200. -/
theorem readByte_loaded (s : State) (bytes : List Byte) (a : Nat) :
    (s.loaded bytes).readByte a = ((State.resetWith s.settings).writeBytes 0x200 bytes).readByte a := rfl

theorem wf_loaded (s : State) {bytes : List Byte} (h : bytes.length ≤ 3584) :
    (s.loaded bytes).mem.wf (s.loaded bytes).font = true :=
  Memory.wf_write Memory.wf_nil bytes (by simp only [Config.progBase]; omega)

theorem sameExcept_loaded (s : State) (bytes : List Byte) :
    SameExcept [.mem, .draws, .schedule] (State.resetWith s.settings) (s.loaded bytes) := by
  constructor
  case mem => intro h; simp at h
  case draws => intro h; simp at h
  case schedule => intro h; simp at h
  all_goals intros; rfl

/-- Settles O54: the load of at most 3584 bytes is the reset state with one write of memory. -/
theorem loadPlacesProgram : Obligations.LoadPlacesProgram := by
  intro s bytes hlen
  refine ⟨_, congrArg Host.Outcome.next (load_of_le s hlen), fun k hk => ?_, fun a ha => ?_,
    sameExcept_loaded s bytes, loaded_fault s bytes, wf_loaded s hlen⟩
  · rw [readByte_loaded, readByte_write_inside _ _ _ _ hk]
  · rw [readByte_loaded]
    exact memSameOutside_write _ _ bytes a ha

/-- Settles O55: the failed load latches LoadError, and a latched block ignores `Step` (`interpret_halted`). -/
theorem oversizeLoadFails : Obligations.OversizeLoadFails := by
  intro s bytes hlen
  have hhalted : s.loadFailed.fault ≠ none := by simp
  refine ⟨s.loadFailed, congrArg Host.Outcome.next (load_of_gt s hlen), loadFailed_fault s,
    interpret_halted hhalted, ?_⟩
  rw [report, loadFailed_fault, Option.map_some]

end Sys2Proof.Machine
end

section
/-! Proofs.Invariant: the invariant of 10_state.md R30 holds after reset and load, and every move keeps it. -/

namespace Sys2Proof.Machine

/-! ### The base -/

/-- The empty stack and the reset value of pc are within the bounds. -/
theorem bounded_resetWith (c : Config.Settings) : (State.resetWith c).bounded :=
  ⟨(by decide : (0x200 : Word).toNat ≤ 0x10FE), fun _ hk => absurd hk (Nat.not_lt_zero _)⟩

theorem inv_resetWith (c : Config.Settings) : (State.resetWith c).Inv := ⟨rfl, fun _ => bounded_resetWith c⟩

theorem inv_loaded (s : State) {bytes : List Byte} (h : bytes.length ≤ 3584) : (s.loaded bytes).Inv :=
  ⟨wf_loaded s h, fun _ => bounded_resetWith s.settings⟩

/-- Settles O56: memory after a load is a write inside memory (`wf_loaded`), pc and the stack are as after reset. -/
theorem invariantHoldsAfterLoad : Obligations.InvariantHoldsAfterLoad :=
  ⟨inv_resetWith _, inv_resetWith, fun s _ => inv_loaded s⟩

/-! ### Memory stays canonical -/

/-- An instruction that stores writes inside memory, any other leaves the list that holds memory alone. -/
theorem exec_wf {i : Instr} {s t : State} (h : exec i s = .next t) (hwf : s.mem.wf s.font = true) :
    t.mem.wf t.font = true := by
  have hfont : t.font = s.font := congrArg (·.font) (exec_frame h).settings
  rw [hfont]
  cases hstores : stores i with
  | false => rwa [exec_mem h hstores]
  | true =>
    obtain ⟨k, rfl⟩ | ⟨hrange, bs, hlen, rfl⟩ := exec_stores h hstores
    · exact hwf
    · obtain hzero | hle := inRange_iff.mp hrange
      · rw [hzero, List.length_eq_zero_iff] at hlen
        rwa [hlen]
      · exact Memory.wf_write hwf bs (by omega)

/-! ### pc and the stack stay within their bounds -/

theorem bounded_setPc {s : State} {w : Word} (hs : s.bounded) (hw : w.toNat ≤ 0x10FE) : (s.setPc w).bounded :=
  ⟨hw, hs.2⟩

theorem bounded_skipIf {s : State} (c : Bool) (hs : s.bounded) (hpc : s.pc.toNat ≤ 0x1000) : (s.skipIf c).bounded := by
  rw [skipIf_eq_setPc]
  refine bounded_setPc hs ?_
  cases c
  · simp; omega
  · simp; omega

/-- What leaves pc, the stack and the depth alone leaves the bounds. -/
theorem bounded_of_sameExcept {w : List Part} {s t : State} (h : SameExcept w s t) (hpc : .pc ∉ w) (hstack : .stack ∉ w)
    (hsp : .sp ∉ w) (hs : s.bounded) : t.bounded := by
  unfold State.bounded State.stackEntry
  rw [h.pc hpc, h.sp hsp, h.stack hstack]
  exact hs

/-- A push of an address between 2 and 0x1000 keeps the bounds. -/
theorem bounded_push {s t : State} {w : Word} (hpush : s.push w = some t) (hs : s.bounded) (hlow : 2 ≤ w.toNat)
    (hhigh : w.toNat ≤ 0x1000) : t.bounded := by
  obtain ⟨hpc, hentries⟩ := hs
  obtain ⟨-, hsp, htop, hothers, ht⟩ := push_eq_some hpush
  refine ⟨by rw [ht]; exact hpc, fun k hk => ?_⟩
  by_cases hk' : k = s.sp.val
  · rw [hk', htop]; exact ⟨hlow, hhigh⟩
  · rw [hothers k hk']; exact hentries k (by omega)

/-- A pop keeps the bounds, and its word is a valid entry. -/
theorem bounded_pop {s t : State} {w : Word} (hpop : s.pop = some (w, t)) (hs : s.bounded) :
    t.bounded ∧ w.toNat ≤ 0x1000 := by
  obtain ⟨hpc, hentries⟩ := hs
  obtain ⟨hpos, hsp, hw, ht⟩ := pop_eq_some hpop
  refine ⟨⟨by rw [ht]; exact hpc, fun k hk => ?_⟩, by rw [hw]; exact (hentries _ (by omega)).2⟩
  have hentry : t.stackEntry k = s.stackEntry k := by rw [ht]; rfl
  rw [hentry]
  exact hentries k (by omega)

/-- The instructions that write the stack or the depth write pc too. -/
theorem stack_sp_notMem_writes {i : Instr} (h : .pc ∉ writes i) : Part.stack ∉ writes i ∧ Part.sp ∉ writes i := by
  cases i <;> simp_all [writes, mem_partsUpTo]

/-- Whatever instruction is executed past an address in memory, pc and the valid entries stay within their bounds: the
highest pc is that of `JP0`, 0xFF + 0xFFF; the entries pushed are the pc past a `CALL`. -/
theorem exec_bounded {i : Instr} {s t : State} (h : exec i s = .next t) (hs : s.bounded) (hlow : 2 ≤ s.pc.toNat)
    (hhigh : s.pc.toNat ≤ 0x1000) : t.bounded := by
  obtain ⟨k, -, rfl⟩ | ⟨hnone, hcompletes⟩ := exec_cases h
  · exact hs
  by_cases hpc : .pc ∈ writes i
  swap
  · obtain ⟨hstack, hsp⟩ := stack_sp_notMem_writes hpc
    exact bounded_of_sameExcept hcompletes.frame hpc hstack hsp hs
  cases i
  case ret =>
    have hsp : s.sp.val ≠ 0 := by simpa [execFault] using hnone
    obtain ⟨w, u, hpop⟩ := exists_pop (Nat.pos_of_ne_zero hsp)
    rw [exec_ret, execRet_pop hpop] at h
    cases h
    obtain ⟨hu, hw⟩ := bounded_pop hpop hs
    exact bounded_setPc hu (by omega)
  case call nnn =>
    have hsp : s.sp.val ≠ 16 := by simpa [execFault] using hnone
    obtain ⟨u, hpush⟩ := exists_push (s := s) s.pc (by omega)
    rw [exec_call, execCall_push hpush] at h
    cases h
    exact bounded_setPc (bounded_push hpush hs hlow hhigh) (by rw [toNat_addrLit]; omega)
  case jp nnn => cases h; exact bounded_setPc hs (by rw [toNat_addrLit]; omega)
  case jp0 nnn => cases h; exact bounded_setPc hs (by rw [BitVec.toNat_add, toNat_addrLit, toNat_wide]; omega)
  case sei | snei | se | sne => cases h; exact bounded_skipIf _ hs hhigh
  case skp x =>
    rw [exec_skp, execSkp_eq, if_neg (by simpa [execFault] using hnone)] at h
    cases h
    exact bounded_skipIf _ hs hhigh
  case sknp x =>
    rw [exec_sknp, execSknp_eq, if_neg (by simpa [execFault] using hnone)] at h
    cases h
    exact bounded_skipIf _ hs hhigh
  case wkey x =>
    cases hkey : lowestKey s.keys with
    | none =>
      rw [exec_wkey, execWkey_none (lowestKey_eq_none.mp hkey)] at h
      cases h
      exact bounded_setPc hs (by rw [BitVec.toNat_sub]; simp; omega)
    | some k =>
      rw [exec_wkey, execWkey_some hkey] at h
      cases h
      exact hs
  all_goals simp [writes, mem_partsUpTo] at hpc

/-! ### Every move keeps the invariant -/

/-- The pc past an instruction that was fetched from memory. -/
theorem toNat_advanced_pc {s : State} (h : s.pc.toNat + 1 ≤ 0xFFF) :
    (s.setPc (s.pc + 2)).pc.toNat = s.pc.toNat + 2 := by
  rw [setPc_pc, BitVec.toNat_add]
  simp
  omega

/-- The block with pc moved past an instruction that was fetched from memory. -/
theorem bounded_advanced {s : State} (hs : s.bounded) (h : s.pc.toNat + 1 ≤ 0xFFF) :
    (s.setPc (s.pc + 2)).bounded :=
  ⟨by rw [toNat_advanced_pc h]; omega, hs.2⟩

theorem interpret_inv {s t : State} (h : s.interpret = .next t) (hs : s.Inv) : t.Inv := by
  obtain ⟨hwf, hbounded⟩ := hs
  have hrunning (hfault : s.fault = none) : s.bounded := hbounded (by simp [hfault])
  cases interpret_cases h with
  | halted _ => exact ⟨hwf, hbounded⟩
  | fetchFault hfault _ => exact ⟨hwf, fun _ => hrunning hfault⟩
  | illegal hfault hpc _ =>
    exact ⟨hwf, fun _ => bounded_advanced (hrunning hfault) hpc⟩
  | executed i hfault hnext hexec =>
    obtain ⟨hpc, -⟩ := nextInstr_eq_some.mp hnext
    have hadvanced := toNat_advanced_pc hpc
    exact ⟨exec_wf hexec hwf, fun _ =>
      exec_bounded hexec (bounded_advanced (hrunning hfault) hpc) (by omega) (by omega)⟩

theorem inv_loadFailed (s : State) : s.loadFailed.Inv := by
  refine ⟨?_, fun h => absurd (loadFailed_fault s) h⟩
  rw [loadFailed_mem, State.font, loadFailed_settings]
  exact wf_unknownMemory _ _

/-- Every event keeps the invariant: the events other than `Step` and `Load` touch none of what it speaks of. -/
theorem deliver_inv {s t : State} {e : Event} (h : s.deliver e = .next t) (hs : s.Inv) : t.Inv := by
  cases e with
  | step => exact interpret_inv h hs
  | load bytes =>
    cases h
    by_cases hlen : bytes.length ≤ 3584
    · exact (load_of_le s hlen).symm ▸ inv_loaded s hlen
    · exact (load_of_gt s (Nat.lt_of_not_le hlen)).symm ▸ inv_loadFailed s
  | tick | keyDown k | keyUp k | commitFrame => cases h; exact hs

/-- Settles O57: a move delivers one event (`step_eq_deliver`), and every event keeps the invariant (`deliver_inv`). -/
theorem stepKeepsInvariant : Obligations.StepKeepsInvariant := by
  intro s t hs hstep
  rw [step_eq_deliver] at hstep
  exact deliver_inv hstep hs

end Sys2Proof.Machine
end

section
/-! Proofs.Unobserved: updates of the timers, the previous frame and the schedule that no step looks at (10_state.md
sections 5 and 6, 20_memory.md R50). -/

namespace Sys2Proof.Machine

/-! ### The fields no instruction but GDT, SDT and SST looks at -/

/-- The timers, the previous frame and the schedule. -/
structure Aside where
  dt : Byte
  st : Byte
  prev : Screen
  schedule : List Event

def State.asideOf (s : State) : Aside := ⟨s.dt, s.st, s.prev, s.schedule⟩

def State.withAside (s : State) (a : Aside) : State :=
  { s with dt := a.dt, st := a.st, prev := a.prev, schedule := a.schedule }

/-- An update of these fields by what they hold: a tick is one, and so is a write of any of them. -/
def State.mapAside (u : Aside → Aside) (s : State) : State := s.withAside (u s.asideOf)

theorem withAside_skipIf (s : State) (a : Aside) (c : Bool) : (s.withAside a).skipIf c = (s.skipIf c).withAside a := by
  cases c <;> rfl

theorem withAside_push {s t : State} {w : Word} (h : s.push w = some t) (a : Aside) :
    (s.withAside a).push w = some (t.withAside a) := by
  unfold State.push at h ⊢
  split at h
  · cases h
  · rename_i hroom
    cases h
    exact dif_neg hroom

theorem withAside_pop {s t : State} {w : Word} (h : s.pop = some (w, t)) (a : Aside) :
    (s.withAside a).pop = some (w, t.withAside a) := by
  unfold State.pop at h ⊢
  split at h
  · cases h
  · rename_i hentries
    cases h
    exact dif_neg hentries

theorem withAside_setRegs (s : State) (a : Aside) (k : Nat) (bs : List Byte) :
    (s.withAside a).setRegs k bs = (s.setRegs k bs).withAside a := by
  induction bs generalizing s k with
  | nil => rfl
  | cons b bs ih => exact ih { s with V := s.V.setIfInBounds k b } (k + 1)

/-- The checks look at none of these fields. -/
theorem execFault_withAside (i : Instr) (s : State) (a : Aside) : execFault i (s.withAside a) = execFault i s := by
  cases i <;> rfl

/-- One of the three instructions that read or write a timer (R160 to R162). -/
def isTimer : Instr → Bool
  | .gdt _ | .sdt _ | .sst _ => true
  | _ => false

/-- An instruction that is none of GDT, SDT, SST does the same whatever the timers, the previous frame and the schedule
hold, and passes them on. -/
theorem exec_withAside {i : Instr} {s t : State} (h : exec i s = .next t) (hi : isTimer i = false) (a : Aside) :
    exec i (s.withAside a) = .next (t.withAside a) := by
  obtain ⟨k, hk, rfl⟩ | ⟨hnone, -⟩ := exec_cases h
  · exact exec_of_execFault ((execFault_withAside i s a).trans hk)
  cases i
  case cls | jp | ldi | addi | mov | or | and | xor | add | sub | shr | subn | shl | lda | jp0 | rnd | adda | font =>
    cases h; rfl
  case sei | snei | se | sne => cases h; exact congrArg Host.Outcome.next (withAside_skipIf s a _)
  case ret =>
    have hsp : s.sp.val ≠ 0 := by simpa [execFault] using hnone
    obtain ⟨w, u, hpop⟩ := exists_pop (Nat.pos_of_ne_zero hsp)
    cases (execRet_pop hpop).symm.trans h
    exact execRet_pop (withAside_pop hpop a)
  case call nnn =>
    have hsp : s.sp.val ≠ 16 := by simpa [execFault] using hnone
    obtain ⟨u, hpush⟩ := exists_push (s := s) s.pc (by omega)
    cases (execCall_push hpush).symm.trans h
    exact execCall_push (withAside_push hpush a)
  case drw x y n =>
    have hrange : inRange s.dataAddr n.val = true := by simpa [execFault] using hnone
    cases ((execDrw_eq x y n s).trans (if_pos hrange)).symm.trans h
    exact (execDrw_eq x y n _).trans (if_pos hrange)
  case skp x =>
    have hkey : ¬ (s.getV x).toNat > 0xF := by simpa [execFault] using hnone
    cases ((execSkp_eq x s).trans (if_neg hkey)).symm.trans h
    exact (execSkp_eq x _).trans ((if_neg hkey).trans (congrArg Host.Outcome.next (withAside_skipIf s a _)))
  case sknp x =>
    have hkey : ¬ (s.getV x).toNat > 0xF := by simpa [execFault] using hnone
    cases ((execSknp_eq x s).trans (if_neg hkey)).symm.trans h
    exact (execSknp_eq x _).trans ((if_neg hkey).trans (congrArg Host.Outcome.next (withAside_skipIf s a _)))
  case wkey x =>
    cases hkey : lowestKey s.keys with
    | none =>
      cases (execWkey_none (lowestKey_eq_none.mp hkey)).symm.trans h
      exact execWkey_none (s := s.withAside a) (lowestKey_eq_none.mp hkey)
    | some k =>
      cases (execWkey_some hkey).symm.trans h
      exact execWkey_some (s := s.withAside a) hkey
  case bcd x =>
    have hrange : inRange s.dataAddr bcdCount = true := by simpa [execFault] using hnone
    cases ((execBcd_eq x s).trans (if_pos hrange)).symm.trans h
    exact (execBcd_eq x _).trans (if_pos hrange)
  case stm x =>
    have hrange : inRange s.dataAddr (blockCount x) = true := by simpa [execFault] using hnone
    cases ((execStm_eq x s).trans (if_pos hrange)).symm.trans h
    exact (execStm_eq x _).trans (if_pos hrange)
  case ldm x =>
    have hrange : inRange s.dataAddr (blockCount x) = true := by simpa [execFault] using hnone
    cases ((execLdm_eq x s).trans (if_pos hrange)).symm.trans h
    exact (execLdm_eq x _).trans ((if_pos hrange).trans (congrArg Host.Outcome.next (withAside_setRegs s a 0 _)))
  all_goals cases hi

/-- Such an instruction leaves these fields alone. -/
theorem exec_asideOf {i : Instr} {s t : State} (h : exec i s = .next t) (hi : isTimer i = false) :
    t.asideOf = s.asideOf := by
  have hframe := exec_frame h
  have hdt : Part.dt ∉ writes i := fun hw => by obtain ⟨x, rfl⟩ := dt_mem_writes.mp hw; cases hi
  have hst : Part.st ∉ writes i := fun hw => by obtain ⟨x, rfl⟩ := st_mem_writes.mp hw; cases hi
  rw [State.asideOf, State.asideOf, hframe.dt hdt, hframe.st hst, hframe.prev (prev_notMem_writes i),
    hframe.schedule (schedule_notMem_writes i)]

/-- Such an instruction commutes with every update of these fields. -/
theorem exec_mapAside {i : Instr} {s t : State} (h : exec i s = .next t) (hi : isTimer i = false) (u : Aside → Aside) :
    exec i (s.mapAside u) = .next (t.mapAside u) := by
  rw [State.mapAside, State.mapAside, exec_asideOf h hi]
  exact exec_withAside h hi _

/-! ### From instructions to steps -/

/-- A step commutes with an update of these fields, when GDT, SDT and SST do where one of them is at pc: the fetch and
the latch look at none of them. -/
theorem interpret_mapAside {s t : State} {u : Aside → Aside} (h : s.interpret = .next t)
    (htimer : ∀ i r, s.nextInstr = some i → isTimer i = true → exec i r = .next t →
      exec i (r.mapAside u) = .next (t.mapAside u)) : (s.mapAside u).interpret = .next (t.mapAside u) := by
  have hnext : (s.mapAside u).nextInstr = s.nextInstr := nextInstr_congr rfl fun _ => rfl
  cases interpret_cases h with
  | halted hfault => exact interpret_halted (s := s.mapAside u) hfault
  | fetchFault hfault hpc => exact interpret_fetchFault (s := s.mapAside u) hfault hpc
  | illegal hfault hpc hnone =>
    cases hdecode : decodeWord (s.readByte s.pc.toNat ++ s.readByte (s.pc.toNat + 1)) with
    | ok i => cases hnone.symm.trans (nextInstr_eq_some.mpr ⟨hpc, hdecode⟩)
    | error e => exact interpret_illegal (s := s.mapAside u) hfault hpc hdecode
  | executed i hfault hi hexec =>
    refine (interpret_executed (s := s.mapAside u) hfault (hnext.trans hi)).trans ?_
    cases htimer' : isTimer i with
    | false => exact exec_mapAside hexec htimer' u
    | true => exact htimer i _ hi htimer' hexec

/-- A step commutes with a change of the schedule. -/
theorem interpret_withSchedule {s t : State} (h : s.interpret = .next t) (q : List Event) :
    State.interpret { s with schedule := q } = .next { t with schedule := q } :=
  interpret_mapAside (u := fun a => { a with schedule := q }) h fun i _ _ hi hexec => by
    cases i
    case gdt | sdt | sst => cases hexec; rfl
    all_goals cases hi

/-- A step commutes with a change of the previous frame. -/
theorem interpret_withPrev {s t : State} (h : s.interpret = .next t) (p : Screen) :
    State.interpret { s with prev := p } = .next { t with prev := p } :=
  interpret_mapAside (u := fun a => { a with prev := p }) h fun i _ _ hi hexec => by
    cases i
    case gdt | sdt | sst => cases hexec; rfl
    all_goals cases hi

/-- A step of an instruction other than SST commutes with a change of the sound timer. -/
theorem interpret_withSt {s t : State} (h : s.interpret = .next t) (hnext : ∀ x, s.nextInstr ≠ some (.sst x))
    (v : Byte) : State.interpret { s with st := v } = .next { t with st := v } :=
  interpret_mapAside (u := fun a => { a with st := v }) h fun i _ hi htimer hexec => by
    cases i
    case gdt | sdt => cases hexec; rfl
    case sst x => exact absurd hi (hnext x)
    all_goals cases htimer

/-- Settles O51: a tick is an update of the timers by what they hold, and no timer instruction is at pc. -/
theorem tickCommutesWithStep : Obligations.TickCommutesWithStep := by
  intro s t h hnext
  refine interpret_mapAside (u := fun a => { a with dt := countDown a.dt, st := countDown a.st }) h
    fun i _ hi htimer _ => ?_
  cases i
  case gdt => exact absurd hi (hnext _).1
  case sdt => exact absurd hi (hnext _).2.1
  case sst => exact absurd hi (hnext _).2.2
  all_goals cases htimer

/-- Settles O52: `interpret_withPrev` and `interpret_withSt`. -/
theorem prevAndSoundAreUnobservable : Obligations.PrevAndSoundAreUnobservable :=
  fun _ _ p v h => ⟨interpret_withPrev h p, fun hnext => interpret_withSt h hnext v⟩

end Sys2Proof.Machine
end

section
/-! Proofs.Runs: runs of schedules (60_exceptions.md R180 to R182): the machine's own schedule, the previous frame
(45_display.md R146, R147), the end of a program (70_reset_and_hazards.md R222). -/

namespace Sys2Proof.Machine

/-! ### A run, event by event -/

/-- A run of a nonempty schedule delivers its first event and runs the rest. -/
theorem runEvents_cons_eq_next {e : Event} {es : List Event} {s t : State} :
    runEvents (e :: es) s = .next t ↔ ∃ u, s.deliver e = .next u ∧ runEvents es u = .next t := by
  obtain ⟨u, hu⟩ := exists_deliver s e
  simp [runEvents, hu]

/-- What a load of at most 3584 bytes answers. -/
theorem deliver_load_of_le (s : State) {bytes : List Byte} (h : bytes.length ≤ 3584) :
    s.deliver (.load bytes) = .next (s.loaded bytes) :=
  congrArg Host.Outcome.next (load_of_le s h)

/-! ### The machine's own schedule -/

/-- The pending events are looked at by no event that is being delivered. -/
theorem deliver_withSchedule {s t : State} {e : Event} (h : s.deliver e = .next t) (q : List Event) :
    State.deliver { s with schedule := q } e = .next { t with schedule := q } := by
  cases e with
  | step => exact interpret_withSchedule h q
  | load bytes =>
    cases h
    by_cases hlen : bytes.length ≤ 3584
    · rw [deliver_load_of_le _ hlen, load_of_le _ hlen]; rfl
    · refine congrArg Host.Outcome.next ?_
      rw [load_of_gt _ (Nat.lt_of_not_le hlen), load_of_gt _ (Nat.lt_of_not_le hlen)]
      rfl
  | tick | keyDown k | keyUp k | commitFrame => cases h; rfl

/-- A run of the machine goes on from the state its first move answers. -/
theorem run_succ {M : Host.Core} {k : Nat} {s t : M.State} (h : M.step s = .next t) : M.run (k + 1) s = M.run k t := by
  rw [Host.Core.run, h]

/-- Settles O59: each move delivers the first pending event (`step_cons`), and the rest of the schedule is not looked at
meanwhile (`deliver_withSchedule`). -/
theorem machineRunsItsSchedule : Obligations.MachineRunsItsSchedule := by
  intro es
  induction es with
  | nil => intro s; rfl
  | cons e es ih =>
    intro s
    obtain ⟨t, ht⟩ := exists_deliver { s with schedule := [] } e
    have hmove : core.step ({ s with schedule := e :: es } : State) = .next ({ t with schedule := es } : State) :=
      (step_cons (s := { s with schedule := e :: es }) rfl).trans (deliver_withSchedule ht es)
    have ht' : { t with schedule := [] } = t := by
      have := deliver_withSchedule ht []
      rw [ht] at this
      exact (Host.Outcome.next.inj this).symm
    refine (run_succ hmove).trans ((ih t).trans ?_)
    rw [ht', runEvents_cons es ht]

/-! ### The previous frame -/

/-- The previous frame after an event that is no failed load: as it was, blank after a load, the screen after a commit
(R30). -/
theorem deliver_prev {s t : State} {e : Event} (h : s.deliver e = .next t)
    (hload : ∀ bytes, e = .load bytes → bytes.length ≤ 3584) :
    t.prev = s.prev ∨ t.prev = Screen.blank ∨ t.prev = s.fb := by
  cases e with
  | step => exact .inl (interpret_prev h)
  | load bytes =>
    rw [deliver_load_of_le s (hload bytes rfl)] at h
    cases h
    exact .inr (.inl (loaded_prev s bytes))
  | commitFrame => cases h; exact .inr (.inr rfl)
  | tick | keyDown k | keyUp k => cases h; exact .inl rfl

/-- The previous frame after a run in which no load fails: as it was, blank, or an earlier screen of the run. -/
theorem runEvents_prev {es : List Event} {s t : State} (hload : ∀ bytes, Event.load bytes ∈ es → bytes.length ≤ 3584)
    (h : runEvents es s = .next t) :
    t.prev = s.prev ∨ t.prev = Screen.blank ∨
      ∃ before after u, es = before ++ after ∧ runEvents before s = .next u ∧ t.prev = u.fb := by
  induction es generalizing s with
  | nil => cases h; exact .inl rfl
  | cons e es ih =>
    obtain ⟨u, hu, hrun⟩ := runEvents_cons_eq_next.mp h
    obtain hprev | hblank | ⟨before, after, v, rfl, hv, hprev⟩ :=
      ih (fun bytes hb => hload bytes (List.mem_cons_of_mem _ hb)) hrun
    · obtain hu' | hu' | hu' := deliver_prev hu (fun bytes he => hload bytes (he ▸ List.mem_cons_self ..))
      · exact .inl (hprev.trans hu')
      · exact .inr (.inl (hprev.trans hu'))
      · exact .inr (.inr ⟨[], e :: es, s, rfl, rfl, hprev.trans hu'⟩)
    · exact .inr (.inl hblank)
    · exact .inr (.inr ⟨e :: before, after, v, rfl, (runEvents_cons before hu).trans hv, hprev⟩)

/-- The change query compares the two screens pixel by pixel (R146). -/
theorem hasChanged_iff (s : State) :
    s.hasChanged = true ↔ ∃ row col, row < 32 ∧ col < 64 ∧ s.fb.pixel row col ≠ s.prev.pixel row col := by
  rw [State.hasChanged, decide_eq_true_iff]
  constructor
  · intro hne
    by_contra hsame
    push Not at hsame
    exact hne (screen_ext hsame)
  · rintro ⟨row, col, -, -, hpixel⟩ heq
    exact hpixel (by rw [heq])

/-- Settles O58: CommitFrame is one write of prev; the query is `hasChanged_iff`; the runs are `runEvents_prev`. -/
theorem prevIsAnEarlierFrame : Obligations.PrevIsAnEarlierFrame := by
  refine ⟨fun s => ⟨s.commitFrame, rfl, fun row col => by rw [commitFrame_prev], ?_, sameExcept_commitFrame s⟩,
    hasChanged_iff, fun es s t => runEvents_prev⟩
  exact decide_eq_false fun hne => hne rfl

/-! ### The end of a program -/

/-- A program stays at its end while pc, memory and the latch stay. -/
theorem atEnd_of_sameExcept {s t : State} (h : SameExcept [.dt, .st, .keys, .prev] s t) (hs : s.atEnd) : t.atEnd := by
  obtain ⟨hfault, nnn, hnext, hself⟩ := hs
  have hpc : t.pc = s.pc := h.pc (by simp)
  have hnext' : t.nextInstr = s.nextInstr := nextInstr_congr hpc (h.mem (by simp))
  exact ⟨(h.fault (by simp)).trans hfault, nnn, hnext'.trans hnext, hself.trans hpc.symm⟩

/-- At the end of a program every event but a load writes the timers, the keys or prev, or nothing. -/
theorem deliver_atEnd {s : State} {e : Event} (hs : s.atEnd) (hload : ∀ bytes, e ≠ .load bytes) :
    ∃ t, s.deliver e = .next t ∧ SameExcept [.dt, .st, .keys, .prev] s t := by
  cases e with
  | step =>
    obtain ⟨hfault, nnn, hnext, hself⟩ := hs
    exact ⟨s, interpret_selfJump hfault hnext hself, SameExcept.refl _ s⟩
  | tick => exact ⟨_, rfl, (sameExcept_tick s).mono (by simp)⟩
  | keyDown k => exact ⟨_, rfl, (sameExcept_keyDown s k).mono (by simp)⟩
  | keyUp k => exact ⟨_, rfl, (sameExcept_keyUp s k).mono (by simp)⟩
  | load bytes => exact absurd rfl (hload bytes)
  | commitFrame => exact ⟨_, rfl, (sameExcept_commitFrame s).mono (by simp)⟩

/-- Settles O60: at the end of a program each event keeps it there (`deliver_atEnd`, `atEnd_of_sameExcept`). -/
theorem endedProgramStaysAtEnd : Obligations.EndedProgramStaysAtEnd := by
  intro es
  induction es with
  | nil => exact fun s hs _ => ⟨s, rfl, hs, SameExcept.refl _ s⟩
  | cons e es ih =>
    intro s hs hload
    obtain ⟨u, hu, hsame⟩ := deliver_atEnd hs fun bytes he => hload bytes (he ▸ List.mem_cons_self ..)
    obtain ⟨t, hrun, ht, hsame'⟩ :=
      ih u (atEnd_of_sameExcept hsame hs) fun bytes hb => hload bytes (List.mem_cons_of_mem _ hb)
    exact ⟨t, (runEvents_cons es hu).trans hrun, ht, hsame.trans hsame'⟩

end Sys2Proof.Machine
end

section
/-! Proofs.Tone: the ticks of the two timers and the tone's signals (47_timers.md R162 to R167). -/

namespace Sys2Proof.Machine

/-! ### SST and the tick -/

/-- Settles O46: SST is one write of the sound timer, and a step sends the edge of the tone (`toneEdge_eq_start`,
`toneEdge_eq_stop`). -/
theorem soundTimerWriteSendsEdge : Obligations.SoundTimerWriteSendsEdge :=
  fun x s => ⟨_, exec_sst x s, rfl, sameExcept_withSt s (s.getV x), toneEdge_eq_start, toneEdge_eq_stop⟩

theorem countDown_eq_zero {c : Byte} : countDown c = 0 ↔ c = 0 ∨ c = 1 := by
  revert c; decide

/-- A tick sends a stop when it takes the sound timer from 1 to 0, and nothing else (R163, R166). -/
theorem toneEdge_tick (s : State) : toneEdge s s.tick = if s.st = 1 then some .stop else none := by
  split_ifs with h
  · rw [toneEdge_eq_stop, tick_st, h]
    decide
  · rw [toneEdge_eq_none, tick_st, countDown_eq_zero, or_iff_left h]

/-- Settles O47: a tick is one write of each timer, and sends the edge it makes (`toneEdge_tick`). -/
theorem tickDecrementsNonzeroTimers : Obligations.TickDecrementsNonzeroTimers :=
  fun s => ⟨s.tick, rfl, toNat_countDown s.dt, toNat_countDown s.st, sameExcept_tick s, toneEdge_tick s⟩

/-! ### Many ticks -/

/-- The signals of a tick followed by those of the ticks after it: the one stop is sent by the tick that takes the sound
timer to 0. -/
theorem tick_stop_append (s : State) (n : Nat) :
    (toneEdge s s.tick).toList ++ (if s.tick.st ≠ 0 ∧ s.tick.st.toNat ≤ n then [.stop] else []) =
      if s.st ≠ 0 ∧ s.st.toNat ≤ n + 1 then [ToneSignal.stop] else [] := by
  rw [toneEdge_tick, tick_st]
  by_cases hone : s.st = 1
  · simp [hone, countDown]
  · rw [if_neg hone]
    refine (List.nil_append _).trans (if_congr ?_ rfl rfl)
    rw [ne_eq, countDown_eq_zero, or_iff_left hone, toNat_countDown, Nat.sub_le_iff_le_add]

/-- Settles O48, by induction on the number of ticks. -/
theorem timersAfterManyTicks : Obligations.TimersAfterManyTicks := by
  intro n
  induction n with
  | zero =>
    intro s
    refine ⟨s, rfl, rfl, rfl, SameExcept.refl _ s, ?_⟩
    rw [if_neg (fun h => h.1 (BitVec.eq_of_toNat_eq (Nat.le_zero.mp h.2)))]
    rfl
  | succ n ih =>
    intro s
    obtain ⟨t, hrun, hdt, hst, hsame, hsignals⟩ := ih s.tick
    have htick : s.deliver .tick = .next s.tick := rfl
    rw [tick_dt, toNat_countDown] at hdt
    rw [tick_st, toNat_countDown] at hst
    refine ⟨t, (runEvents_cons _ htick).trans hrun, by omega, by omega, (sameExcept_tick s).trans hsame, ?_⟩
    rw [← tick_stop_append, ← hsignals]
    rfl

/-! ### Ticks in any schedule -/

/-- What an event does to the delay timer, where it is no load and no step of SDT: a tick takes it down, the others
leave it. -/
theorem deliver_dt {s t : State} {e : Event} (h : s.deliver e = .next t) (hload : ∀ bytes, e ≠ .load bytes)
    (hsdt : e = .step → ∀ x, s.nextInstr ≠ some (.sdt x)) : t.dt.toNat = s.dt.toNat - [e].count .tick := by
  cases e with
  | step =>
    have hdt : t.dt = s.dt := by
      by_contra hne
      obtain ⟨x, hx⟩ := nextInstr_sdt_of_dt_ne h hne
      exact hsdt rfl x hx
    rw [hdt]; rfl
  | tick => cases h; exact toNat_countDown s.dt
  | load bytes => exact absurd rfl (hload bytes)
  | keyDown k | keyUp k | commitFrame => cases h; rfl

/-- Settles O49, by induction on the schedule (`deliver_dt`). -/
theorem ticksAreNeverLost : Obligations.TicksAreNeverLost := by
  intro es
  induction es with
  | nil =>
    rintro s _ - - ⟨⟩
    rfl
  | cons e es ih =>
    intro s t hload hsdt hrun
    obtain ⟨u, hu, hrun'⟩ := runEvents_cons_eq_next.mp hrun
    have hfirst := deliver_dt hu (fun bytes he => hload bytes (he ▸ List.mem_cons_self ..))
      (fun he x => hsdt [] es s (by rw [he]; rfl) rfl x)
    have hrest := ih u t (fun bytes hb => hload bytes (List.mem_cons_of_mem _ hb))
      (fun before after v hes hv x =>
        hsdt (e :: before) after v (by rw [hes]; rfl) ((runEvents_cons before hu).trans hv) x)
      hrun'
    rw [hrest, hfirst, Nat.sub_sub, ← List.count_append, List.singleton_append]

/-! ### The causes of a signal -/

/-- What a step does to the sound timer: SST of a running block writes VX to it, every other step leaves it. -/
theorem interpret_st {s t : State} (h : s.interpret = .next t) :
    (∃ x, s.fault = none ∧ s.nextInstr = some (.sst x) ∧ t.st = s.getV x) ∨
      (t.st = s.st ∧ (s.fault = none → ∀ x, s.nextInstr ≠ some (.sst x))) := by
  by_cases hsst : s.fault = none ∧ ∃ x, s.nextInstr = some (.sst x)
  · obtain ⟨hfault, x, hnext⟩ := hsst
    rw [interpret_executed hfault hnext, exec_sst] at h
    cases h
    exact .inl ⟨x, hfault, hnext, rfl⟩
  · push Not at hsst
    refine .inr ⟨?_, hsst⟩
    by_contra hne
    obtain ⟨x, hnext⟩ := nextInstr_sst_of_st_ne h hne
    by_cases hfault : s.fault = none
    · exact hsst hfault x hnext
    · cases (interpret_halted hfault).symm.trans h
      exact hne rfl

/-- The edges of a step are those of SST (R162, R166). -/
theorem toneEdge_interpret {s t : State} (h : s.interpret = .next t) :
    (toneEdge s t = some .start ↔ s.fault = none ∧ s.st = 0 ∧ ∃ x, s.nextInstr = some (.sst x) ∧ s.getV x ≠ 0) ∧
    (toneEdge s t = some .stop ↔ s.fault = none ∧ s.st ≠ 0 ∧ ∃ x, s.nextInstr = some (.sst x) ∧ s.getV x = 0) := by
  rw [toneEdge_eq_start, toneEdge_eq_stop]
  obtain ⟨x, hfault, hnext, hst⟩ | ⟨hst, hother⟩ := interpret_st h
  · simp [hfault, hnext, hst]
  · rw [hst]
    constructor
    · exact ⟨fun ⟨h0, h1⟩ => absurd h0 h1, fun ⟨hfault, _, x, hnext, _⟩ => absurd hnext (hother hfault x)⟩
    · exact ⟨fun ⟨h0, h1⟩ => absurd h1 h0, fun ⟨hfault, _, x, hnext, _⟩ => absurd hnext (hother hfault x)⟩

/-- An event that leaves the sound timer alone makes no edge. -/
theorem toneEdge_of_st_eq {s t : State} (h : t.st = s.st) : toneEdge s t = none := by
  rw [toneEdge_eq_none, h]

/-- The signals of an event, by its kind. -/
theorem toneSignal_causes {e : Event} {s t : State} (h : s.deliver e = .next t) :
    (toneSignal e s t = some .start ↔
      e = .step ∧ s.fault = none ∧ s.st = 0 ∧ ∃ x, s.nextInstr = some (.sst x) ∧ s.getV x ≠ 0) ∧
    (toneSignal e s t = some .stop ↔
      (e = .tick ∧ s.st = 1) ∨
      (e = .step ∧ s.fault = none ∧ s.st ≠ 0 ∧ ∃ x, s.nextInstr = some (.sst x) ∧ s.getV x = 0) ∨
      (∃ bytes, e = .load bytes ∧ bytes.length ≤ 3584 ∧ s.st ≠ 0)) := by
  cases e with
  | step =>
    obtain ⟨hstart, hstop⟩ := toneEdge_interpret h
    rw [toneSignal_eq_edge (by simp), hstart, hstop]
    simp
  | tick =>
    cases h
    rw [toneSignal_eq_edge (by simp), toneEdge_tick]
    simp
  | load bytes =>
    by_cases hlen : bytes.length ≤ 3584
    · rw [deliver_load_of_le s hlen] at h
      cases h
      rw [toneSignal_eq_edge (by simpa using hlen), toneEdge_eq_start, toneEdge_eq_stop]
      have hst : (s.loaded bytes).st = 0 := rfl
      simp [hst, hlen]
    · rw [toneSignal_loadFailed (Nat.lt_of_not_le hlen)]
      simp [hlen]
  | keyDown k | keyUp k | commitFrame =>
    have hst : t.st = s.st := by cases h; rfl
    rw [toneSignal_eq_edge (by simp), toneEdge_of_st_eq hst]
    simp

/-! ### The signals alternate -/

/-- An edge of the tone leads from signals that alternate after it to signals that alternate before it. -/
theorem alternate_toneEdge_append {s t : State} (rest : List ToneSignal) :
    alternate s.tone ((toneEdge s t).toList ++ rest) = alternate t.tone rest := by
  unfold toneEdge
  cases s.tone <;> cases t.tone <;> rfl

theorem alternate_signals {es : List Event} {s : State}
    (hload : ∀ bytes, Event.load bytes ∈ es → bytes.length ≤ 3584) : alternate s.tone (signals es s) = true := by
  induction es generalizing s with
  | nil => cases s.tone <;> rfl
  | cons e es ih =>
    obtain ⟨t, ht⟩ := exists_deliver s e
    have hedge : toneSignal e s t = toneEdge s t :=
      toneSignal_eq_edge fun bytes he => hload bytes (he ▸ List.mem_cons_self ..)
    have hsignals : signals (e :: es) s = (toneEdge s t).toList ++ signals es t := by rw [signals, ht, ← hedge]
    rw [hsignals, alternate_toneEdge_append]
    exact ih fun bytes hb => hload bytes (List.mem_cons_of_mem _ hb)

/-- Settles O50: the causes are `toneSignal_causes`, the alternation `alternate_signals`. -/
theorem toneSignalsHaveOnlyTheirCauses : Obligations.ToneSignalsHaveOnlyTheirCauses := by
  refine ⟨fun e s t h => ?_, fun es s => alternate_signals⟩
  obtain ⟨hstart, hstop⟩ := toneSignal_causes h
  exact ⟨hstart, fun _ => hstop⟩

end Sys2Proof.Machine
end

section
/-! Proofs.Returns: RET (R90), a call and its return (R92), and JP0 (R93) of 41_control_flow.md. -/

namespace Sys2Proof.Machine

/-- Only `00EE` is read as RET: the encoder gives each instruction one word. -/
theorem decodeWord_ret {w : Word} : decodeWord w = .ok .ret ↔ w = 0x00EE :=
  ⟨fun h => (encodeWord_of_decodeWord h).symm, fun h => h ▸ decodeWord_encodeWord .ret⟩

/-- Settles O17: with an entry the pop succeeds and only pc is written after it; with none the latch is all that is
written. -/
theorem returnPopsStack : Obligations.ReturnPopsStack := by
  refine ⟨fun w => decodeWord_ret, fun s => ⟨?entries, ?empty⟩⟩
  case entries =>
    intro hpos
    obtain ⟨w, t, hpop⟩ := exists_pop hpos
    obtain ⟨-, hsp, hw, -⟩ := pop_eq_some hpop
    exact ⟨t.setPc w, (exec_ret s).trans (execRet_pop hpop), hw, hsp, sameExcept_pop_setPc hpop⟩
  case empty =>
    intro hempty
    exact ⟨s.latch .stackUnderflow, (exec_ret s).trans (execRet_empty hempty), latch_fault s _, sameExcept_latch s _⟩

/-- Settles O18: what CALL pushed is the newest entry of any state that has its stack, so RET pops it; the pop leaves
the entries below. -/
theorem returnResumesAfterCall : Obligations.ReturnResumesAfterCall := by
  intro nnn s hroom
  obtain ⟨t, hpush⟩ := exists_push s.pc hroom
  obtain ⟨-, hsp, htop, hothers, -⟩ := push_eq_some hpush
  refine ⟨t.setPc (addrLit nnn), (exec_call nnn s).trans (execCall_push hpush), fun u hstack hdepth => ?_⟩
  have husp : u.sp.val = s.sp.val + 1 := (congrArg Fin.val hdepth).trans hsp
  have hentry (k : Nat) : u.stackEntry k = t.stackEntry k := by
    rw [State.stackEntry, State.stackEntry, hstack, setPc_stack]
  obtain ⟨w, v, hpop⟩ := exists_pop (s := u) (by omega)
  obtain ⟨-, hvsp, hw, hv⟩ := pop_eq_some hpop
  have hpc : w = s.pc := by rw [hw, hentry, husp, Nat.add_sub_cancel, htop]
  refine ⟨v.setPc w, (exec_ret u).trans (execRet_pop hpop), hpc, Fin.ext ?_, fun k hk => ?_⟩
  · rw [setPc_sp, hvsp, husp, Nat.add_sub_cancel]
  · have hkept : v.stackEntry k = u.stackEntry k := by rw [hv]; rfl
    rw [setPc_stackEntry, hkept, hentry, hothers k (by omega)]

/-- The sum of a byte and a literal does not wrap (R93). -/
theorem toNat_wide_add_addrLit (b : Byte) (nnn : Lit12) : (wide b + addrLit nnn).toNat = b.toNat + nnn.toNat := by
  rw [BitVec.toNat_add, toNat_wide, toNat_addrLit]
  omega

/-- Settles O19: JP0 is one write of pc (`exec_jp0`), of a sum that does not wrap (`toNat_wide_add_addrLit`). -/
theorem jumpOffsetAddsV0 : Obligations.JumpOffsetAddsV0 :=
  fun nnn s => ⟨_, exec_jp0 nnn s, toNat_wide_add_addrLit _ nnn, sameExcept_setPc s _⟩

end Sys2Proof.Machine
end

section
/-! Proofs.FlagFirst: the instructions of 43_alu.md that write VF before their result, SUB, SUBN, SHR and SHL (R118 to
R121, R124), and RND (R122). -/

namespace Sys2Proof.Machine

/-! ### The flag first, then the result -/

/-- An instruction that answers a write of VF and then one of VX: the result, written last, is what VX ends as, and VF
keeps the flag where it is not VX. What SUB, SUBN, SHR and SHL have in common (R110). -/
theorem exec_setFlag_setV_effect {i : Instr} {s : State} {x : Reg} {b : Byte} {c : Bool}
    (hexec : exec i s = .next ((s.setFlag c).setV x b)) :
    ∃ t, exec i s = .next t ∧ SameExcept [.V x, .V VF] s t ∧ t.getV x = b ∧ (x ≠ VF → t.getV VF = flagByte c) := by
  have hflag (hx : x ≠ VF) : ((s.setFlag c).setV x b).getV VF = flagByte c := by
    rw [getV_setV_ne _ b hx.symm, getV_setFlag_self]
  exact ⟨_, hexec, sameExcept_setFlag_setV s x b c, getV_setV_self _ x b, hflag⟩

/-- The same where VX is VF: VF ends as the result, and nothing else is written. -/
theorem exec_setFlag_setV_VF_effect {i : Instr} {s : State} {b b' : Byte} {c : Bool}
    (hexec : exec i s = .next ((s.setFlag c).setV VF b)) (hb : b = b') :
    ∃ t, exec i s = .next t ∧ SameExcept [.V VF] s t ∧ t.getV VF = b' := by
  obtain ⟨t, ht, hframe, hresult, -⟩ := exec_setFlag_setV_effect hexec
  exact ⟨t, ht, hframe.mono (by simp), hresult.trans hb⟩

/-- The comparison as a flag: 1 exactly where the first is strictly greater (R118, R120). -/
theorem flagByte_greater (a b : Byte) : flagByte (greater a b) = if a.toNat > b.toNat then 1 else 0 :=
  if_congr decide_eq_true_iff rfl rfl

/-- The difference of two bytes is the difference of their numbers modulo 256. -/
theorem toNat_byteSub (a b : Byte) : ((a - b).toNat : Int) = (a.toNat - b.toNat : Int) % 256 := by
  rw [BitVec.toNat_sub]
  omega

/-- Settles O25: where neither operand is VF the flag written first is not read again (`getV_setFlag_ne`). -/
theorem subtractSetsStrictFlag : Obligations.SubtractSetsStrictFlag := by
  intro x y s hx hy
  constructor
  · obtain ⟨t, ht, hframe, hresult, hflag⟩ := exec_setFlag_setV_effect (exec_sub x y s)
    rw [getV_setFlag_ne _ _ hx, getV_setFlag_ne _ _ hy] at hresult
    exact ⟨t, ht, hresult ▸ toNat_byteSub _ _, (hflag hx).trans (flagByte_greater _ _), hframe⟩
  · obtain ⟨t, ht, hframe, hresult, hflag⟩ := exec_setFlag_setV_effect (exec_subn x y s)
    rw [getV_setFlag_ne _ _ hx, getV_setFlag_ne _ _ hy] at hresult
    exact ⟨t, ht, hresult ▸ toNat_byteSub _ _, (hflag hx).trans (flagByte_greater _ _), hframe⟩

/-! ### Shifts -/

/-- Bit 0 as a number (R119). -/
theorem toNat_flagByte_lowBit (a : Byte) : (flagByte (lowBit a)).toNat = a.toNat % 2 := by
  revert a; decide

/-- Bit 7 as a number (R121). -/
theorem toNat_flagByte_highBit (a : Byte) : (flagByte (highBit a)).toNat = a.toNat / 128 := by
  revert a; decide

theorem toNat_ushiftRight_one (a : Byte) : (a >>> 1).toNat = a.toNat / 2 := by
  rw [BitVec.toNat_ushiftRight, Nat.shiftRight_eq_div_pow, pow_one]

theorem toNat_shiftLeft_one (a : Byte) : (a <<< 1).toNat = a.toNat * 2 % 256 := by
  rw [BitVec.toNat_shiftLeft, Nat.shiftLeft_eq, pow_one]

/-- Settles O26: where VX is not VF the shift reads VX as it was (`getV_setFlag_ne`). -/
theorem shiftSetsLostBit : Obligations.ShiftSetsLostBit := by
  intro x y s hx
  constructor
  · obtain ⟨t, ht, hframe, hresult, hflag⟩ := exec_setFlag_setV_effect (exec_shr x y s)
    rw [getV_setFlag_ne _ _ hx] at hresult
    exact ⟨t, ht, hresult ▸ toNat_ushiftRight_one _, hflag hx ▸ toNat_flagByte_lowBit _, hframe⟩
  · obtain ⟨t, ht, hframe, hresult, hflag⟩ := exec_setFlag_setV_effect (exec_shl x y s)
    rw [getV_setFlag_ne _ _ hx] at hresult
    exact ⟨t, ht, hresult ▸ toNat_shiftLeft_one _, hflag hx ▸ toNat_flagByte_highBit _, hframe⟩

/-! ### VF as an operand -/

/-- A flag shifted right is 0 (R124). -/
theorem flagByte_ushiftRight_one (c : Bool) : flagByte c >>> 1 = 0 := by
  cases c <;> rfl

/-- A flag shifted left is its double (R124). -/
theorem toNat_flagByte_shiftLeft_one (c : Bool) : (flagByte c <<< 1).toNat = 2 * (flagByte c).toNat := by
  cases c <;> rfl

/-- Settles O27: the operand VF is read as the flag just written (`getV_setFlag_self`), any other as it was
(`getV_setFlag_ne`). -/
theorem flagRegisterAsOperand : Obligations.FlagRegisterAsOperand := by
  intro x y s hx hy
  refine ⟨?subDest, ?subOperand, ?subBoth, ?subnDest, ?subnOperand, ?subnBoth, fun z => ⟨?shr, ?shl⟩⟩
  case subDest =>
    refine exec_setFlag_setV_VF_effect (exec_sub VF y s) ?_
    rw [getV_setFlag_self, getV_setFlag_ne _ _ hy, flagByte_greater]
  case subOperand =>
    obtain ⟨t, ht, hframe, hresult, hflag⟩ := exec_setFlag_setV_effect (exec_sub x VF s)
    rw [getV_setFlag_ne _ _ hx, getV_setFlag_self, flagByte_greater] at hresult
    exact ⟨t, ht, hframe, (hflag hx).trans (flagByte_greater _ _), hresult⟩
  case subBoth => exact exec_setFlag_setV_VF_effect (exec_sub VF VF s) (BitVec.sub_self _)
  case subnDest =>
    refine exec_setFlag_setV_VF_effect (exec_subn VF y s) ?_
    rw [getV_setFlag_self, getV_setFlag_ne _ _ hy, flagByte_greater]
  case subnOperand =>
    obtain ⟨t, ht, hframe, hresult, hflag⟩ := exec_setFlag_setV_effect (exec_subn x VF s)
    rw [getV_setFlag_ne _ _ hx, getV_setFlag_self, flagByte_greater] at hresult
    exact ⟨t, ht, hframe, (hflag hx).trans (flagByte_greater _ _), hresult⟩
  case subnBoth => exact exec_setFlag_setV_VF_effect (exec_subn VF VF s) (BitVec.sub_self _)
  case shr =>
    refine exec_setFlag_setV_VF_effect (exec_shr VF z s) ?_
    rw [getV_setFlag_self, flagByte_ushiftRight_one]
  case shl =>
    obtain ⟨t, ht, hframe, hresult⟩ := exec_setFlag_setV_VF_effect (exec_shl VF z s) rfl
    refine ⟨t, ht, hframe, ?_⟩
    rw [hresult, getV_setFlag_self, toNat_flagByte_shiftLeft_one, toNat_flagByte_highBit]

/-! ### RND -/

/-- Settles O28: RND is one write of VX after the stream has moved on (`exec_rnd`). -/
theorem randomByteIsMasked : Obligations.RandomByteIsMasked := by
  intro x nn s
  refine ⟨_, exec_rnd x nn s, getV_setV_self _ x _, ?_, rfl, sameExcept_drawByte_setV s x _⟩
  rw [getV_setV_self, BitVec.and_assoc, BitVec.and_not_self]
  exact BitVec.and_zero

end Sys2Proof.Machine
end

section
/-! Proofs.Memory: MemRead and MemWrite (20_memory.md R47, R48, R53), the canonical form of memory (R23), and the
instructions of 44_index_memory.md that check a range or a sum, ADDA, BCD, STM and LDM (R131 to R135). -/

namespace Sys2Proof.Machine

/-! ### MemRead and MemWrite -/

/-- A range inside memory reads back as what was written to it (R53). -/
theorem readBytes_writeBytes (s : State) (addr : Nat) (bytes : List Byte) :
    (s.writeBytes addr bytes).readBytes addr bytes.length = bytes := by
  apply List.ext_getElem (length_readBytes _ _ _)
  intro k hk hk'
  rw [getElem_readBytes, readByte_write_inside _ _ _ _ hk']

/-- Settles O36: both primitives check the whole range first (`memWrite_of_inRange`, `memRead_of_inRange`). -/
theorem readReturnsLatestWrite : Obligations.ReadReturnsLatestWrite := by
  intro s addr bytes hne
  have hpos : 0 < bytes.length := List.length_pos_of_ne_nil hne
  constructor
  · intro hend
    have hrange : inRange addr bytes.length = true := inRange_iff.mpr (by omega)
    refine ⟨_, memWrite_of_inRange hrange, ?_, memSameOutside_write s addr bytes, sameExcept_write s addr bytes,
      fun hwf => Memory.wf_write hwf bytes (by omega)⟩
    rw [memRead_of_inRange hrange, readBytes_writeBytes]
  · intro hend
    have hrange : inRange addr bytes.length = false := inRange_eq_false.mpr (by omega)
    exact ⟨memWrite_eq_none.mpr hrange, memRead_eq_none.mpr hrange⟩

/-! ### Canonical memories that read alike are equal -/

/-- The lowest listed address of a canonical memory is not below that of one that reads the same. -/
theorem Memory.head_le_of_get_eq {font : Config.Font} {lo lo' k k' : Nat} {b b' : Byte} {m m' : Memory}
    (h : Memory.wfFrom font lo ((k, b) :: m) = true) (h' : Memory.wfFrom font lo' ((k', b') :: m') = true)
    (hget : ∀ a, Memory.get font ((k, b) :: m) a = Memory.get font ((k', b') :: m') a) : k' ≤ k := by
  by_contra hlt
  have hunlisted : Memory.wfFrom font k' ((k', b') :: m') = true := by
    rw [Memory.wfFrom_cons] at h' ⊢
    exact ⟨le_rfl, h'.2⟩
  exact Memory.get_head_ne h ((hget k).trans (Memory.get_of_lt hunlisted (Nat.lt_of_not_le hlt)))

/-- Without the cell at its lowest listed address a canonical memory reads as the reset image up to there, and as before
above. -/
theorem Memory.get_tail {font : Config.Font} {lo k : Nat} {b : Byte} {m : Memory}
    (h : Memory.wfFrom font lo ((k, b) :: m) = true) (a : Nat) :
    Memory.get font m a = if a ≤ k then resetImage font a else Memory.get font ((k, b) :: m) a := by
  obtain ⟨-, -, -, htail⟩ := Memory.wfFrom_cons.mp h
  split_ifs with ha
  · exact Memory.get_of_lt htail (by omega)
  · rw [Memory.get_cons_cell, if_neg (by omega)]

theorem Memory.eq_of_get_eq {font : Config.Font} {lo lo' : Nat} {m m' : Memory} (h : Memory.wfFrom font lo m = true)
    (h' : Memory.wfFrom font lo' m' = true) (hget : ∀ a, Memory.get font m a = Memory.get font m' a) : m = m' := by
  induction m generalizing lo lo' m' with
  | nil =>
    cases m' with
    | nil => rfl
    | cons c' m' => exact absurd (hget c'.1).symm (Memory.get_head_ne h')
  | cons c m ih =>
    cases m' with
    | nil => exact absurd (hget c.1) (Memory.get_head_ne h)
    | cons c' m' =>
      obtain ⟨k, b⟩ := c
      obtain ⟨k', b'⟩ := c'
      obtain rfl : k = k' :=
        le_antisymm (Memory.head_le_of_get_eq h' h fun a => (hget a).symm) (Memory.head_le_of_get_eq h h' hget)
      have hb : b = b' := by simpa [Memory.get_cons_cell] using hget k
      have htail : m = m' :=
        ih (Memory.wfFrom_cons.mp h).2.2.2 (Memory.wfFrom_cons.mp h').2.2.2 fun a => by
          rw [Memory.get_tail h, Memory.get_tail h', hget]
      rw [hb, htail]

/-- Settles O37, by induction on the list (`Memory.eq_of_get_eq`). -/
theorem canonicalMemoryIsUnique : Obligations.CanonicalMemoryIsUnique :=
  fun _ _ _ h h' hget => Memory.eq_of_get_eq h h' hget

/-! ### ADDA -/

/-- What ADDA leaves in VF where the true sum exceeds 0x0FFF, whatever the setting (R131). -/
theorem indexFlag_overflow (p : Config.Fx1eElse) (old : Byte) : indexFlag p true old = 1 := by
  cases p <;> rfl

/-- Settles O31: ADDA is one write of I and one of VF (`exec_adda`); the flag is `indexFlag` of the machine's
setting. -/
theorem addIndexReportsOverflow : Obligations.AddIndexReportsOverflow := by
  intro x s
  refine ⟨_, exec_adda x s, BitVec.toNat_ofNat _ _, fun hover => ?_, fun hfits => ?_, sameExcept_addIndex _ x s⟩
  · have hflag : indexOverflow s.I (s.getV x) = true := decide_eq_true hover
    rw [getV_addIndex_VF, hflag, indexFlag_overflow]
  · have hflag : indexOverflow s.I (s.getV x) = false := decide_eq_false (Nat.not_lt.mpr hfits)
    rw [getV_addIndex_VF, hflag]
    exact ⟨fun hzero => by rw [hzero]; rfl, fun hunchanged => by rw [hunchanged]; rfl⟩

/-! ### BCD and STM: all or nothing -/

/-- The three bytes BCD stores, as numbers: hundreds, tens and ones (R133). -/
theorem toNat_readByte_bcd (s : State) (addr : Nat) (v : Byte) :
    ((s.writeBytes addr (bcdDigits v)).readByte addr).toNat = v.toNat / 100 ∧
    ((s.writeBytes addr (bcdDigits v)).readByte (addr + 1)).toNat = v.toNat / 10 % 10 ∧
    ((s.writeBytes addr (bcdDigits v)).readByte (addr + 2)).toNat = v.toNat % 10 := by
  have hstored (k : Nat) (hk : k < 3) := congrArg BitVec.toNat (readByte_write_inside s addr (bcdDigits v) k hk)
  refine ⟨(hstored 0 (by omega)).trans ?_, (hstored 1 (by omega)).trans ?_, (hstored 2 (by omega)).trans ?_⟩
  all_goals
    simp [bcdDigits]
    omega

/-- The range of BCD lies in memory when its last byte does. -/
theorem inRange_bcd {s : State} : inRange s.dataAddr bcdCount = true ↔ s.I.toNat + 2 ≤ 0xFFF := by
  rw [inRange_iff, State.dataAddr, bcdCount]
  omega

/-- Settles O32: with its three bytes in memory BCD is one write of the digits, otherwise it raises MemoryBounds
(`exec_of_execFault`). -/
theorem bcdStoresDecimalDigits : Obligations.BcdStoresDecimalDigits := by
  intro x s
  constructor
  · intro hend
    obtain ⟨h0, h1, h2⟩ := toNat_readByte_bcd s s.I.toNat (s.getV x)
    refine ⟨_, (exec_bcd x s).trans ((execBcd_eq x s).trans (if_pos (inRange_bcd.mpr hend))), ?_, ?_, ?_, ?_,
      memSameOutside_write s s.dataAddr (bcdDigits (s.getV x)), sameExcept_write s _ _⟩ <;>
    · rw [State.dataAddr]
      omega
  · intro hend
    have hfault : execFault (.bcd x) s = some .memoryBounds := if_neg (by rw [inRange_bcd]; omega)
    exact ⟨_, exec_of_execFault hfault, latch_fault s _, sameExcept_latch s _⟩

/-- The range of STM and LDM lies in memory when its last byte does. -/
theorem inRange_block {s : State} {x : Reg} : inRange s.dataAddr (blockCount x) = true ↔ s.I.toNat + x.val ≤ 0xFFF := by
  rw [inRange_iff, State.dataAddr, blockCount]
  omega

/-- Settles O33: with its bytes in memory STM is one write of the registers' bytes, otherwise it raises MemoryBounds
(`exec_of_execFault`). -/
theorem storeRegistersAtI : Obligations.StoreRegistersAtI := by
  intro x s
  constructor
  · intro hend
    refine ⟨_, (exec_stm x s).trans ((execStm_eq x s).trans (if_pos (inRange_block.mpr hend))), fun k hk => ?_, ?_,
      sameExcept_write s _ _⟩
    · have hlen : k.val < (s.regBytes (blockCount x)).length := by
        rw [length_regBytes]; exact Nat.lt_succ_of_le hk
      exact (readByte_write_inside s s.dataAddr _ k.val hlen).trans (getElem_regBytes s _ k.val hlen k.isLt)
    · have hsame := memSameOutside_write s s.dataAddr (s.regBytes (blockCount x))
      rwa [length_regBytes] at hsame
  · intro hend
    have hfault : execFault (.stm x) s = some .memoryBounds := if_neg (by rw [inRange_block]; omega)
    exact ⟨_, exec_of_execFault hfault, latch_fault s _, sameExcept_latch s _⟩

/-! ### LDM -/

/-- What LDM loads: the bytes of the block into V0..VX, nothing into the registers above (R135). -/
theorem getV_setRegs_readBytes (s : State) (x k : Reg) :
    (s.setRegs 0 (s.readBytes s.dataAddr (blockCount x))).getV k =
      if k ≤ x then s.readByte (s.dataAddr + k.val) else s.getV k := by
  rw [getV_setRegs, if_pos (Nat.zero_le _), Nat.sub_zero]
  split_ifs with hk
  · have hlen : k.val < (s.readBytes s.dataAddr (blockCount x)).length := by
      rw [length_readBytes]; exact Nat.lt_succ_of_le hk
    rw [List.getD_eq_getElem _ _ hlen, getElem_readBytes]
  · exact List.getD_eq_default _ _ (by rw [length_readBytes]; exact Nat.succ_le_of_lt (not_le.mp hk))

/-- Settles O34: with its bytes in memory LDM is one write of a block of registers, otherwise it raises MemoryBounds
(`exec_of_execFault`). -/
theorem loadRegistersFromI : Obligations.LoadRegistersFromI := by
  intro x s
  constructor
  · intro hend
    refine ⟨_, (exec_ldm x s).trans ((execLdm_eq x s).trans (if_pos (inRange_block.mpr hend))), fun k hk => ?_,
      fun k hk => ?_, sameExcept_setRegs s x _ (length_readBytes _ _ _)⟩
    · rw [getV_setRegs_readBytes, if_pos hk, State.dataAddr]
    · rw [getV_setRegs_readBytes, if_neg hk]
  · intro hend
    have hfault : execFault (.ldm x) s = some .memoryBounds := if_neg (by rw [inRange_block]; omega)
    exact ⟨_, exec_of_execFault hfault, latch_fault s _, sameExcept_latch s _⟩

/-! ### What was stored is what is read -/

/-- Settles O35: LDM and the fetch read the bytes that STM is known to have stored (`storeRegistersAtI`,
`loadRegistersFromI`). -/
theorem storedRegistersAreReadBack : Obligations.StoredRegistersAreReadBack := by
  intro x s hend
  obtain ⟨t, hstm, hstored, -, hframe⟩ := (storeRegistersAtI x s).1 hend
  have hI : t.I = s.I := hframe.I (by simp)
  refine ⟨t, hstm, fun u hmem huI => ?_, fun hx u hmem hpc => ?_⟩
  · have huI' : u.I = s.I := huI.trans hI
    obtain ⟨v, hldm, hloaded, -⟩ := (loadRegistersFromI x u).1 (by rwa [huI'])
    exact ⟨v, hldm, fun k hk => by rw [hloaded k hk, huI', hmem, hstored k hk]⟩
  · have h0 : u.readByte u.pc.toNat = s.getV 0 := by rw [hpc, hmem]; exact hstored 0 (Fin.zero_le x)
    have h1 : u.readByte (u.pc.toNat + 1) = s.getV 1 := by rw [hpc, hmem]; exact hstored 1 hx
    have hle : u.pc.toNat + 1 ≤ 0xFFF := by rw [hpc]; omega
    exact ⟨by rw [fetch_of_le hle, h0, h1], fun i hi => nextInstr_eq_some.mpr ⟨hle, by rwa [h0, h1]⟩⟩

end Sys2Proof.Machine
end

section
/-! Proofs.Display: CLS and DRW of 45_display.md; the XOR law (R144) and the word form of a sprite row (R143). -/

namespace Sys2Proof.Machine

/-- A lit pixel lies on the screen. -/
theorem lt_of_pixel {f : Screen} {row col : Nat} (h : f.pixel row col = true) : row < 32 ∧ col < 64 := by
  constructor
  · by_contra hrow
    rw [pixel_of_row_ge f (Nat.le_of_not_lt hrow)] at h
    cases h
  · by_contra hcol
    rw [pixel_of_col_ge f row (Nat.le_of_not_lt hcol)] at h
    cases h

/-! ### CLS -/

/-- Settles O38: CLS is one write of the blank screen (`exec_cls`), and the change query compares pixels
(`hasChanged_iff`); no pixel lies outside the screen. -/
theorem clearScreenBlanksEveryPixel : Obligations.ClearScreenBlanksEveryPixel := by
  intro s
  refine ⟨_, exec_cls s, pixel_blank, sameExcept_withFb s _, ?_⟩
  rw [hasChanged_iff]
  simp only [pixel_blank, ne_eq, Bool.false_eq, Bool.not_eq_false]
  constructor
  · rintro ⟨row, col, -, -, hlit⟩
    exact ⟨row, col, hlit⟩
  · rintro ⟨row, col, hlit⟩
    obtain ⟨hrow, hcol⟩ := lt_of_pixel hlit
    exact ⟨row, col, hrow, hcol, hlit⟩

/-! ### DRW, pixel by pixel -/

/-- The sprite of DRW, in the terms of the raster engine, is the sprite of R141. -/
theorem rowsOn_eq_spriteBit (s : State) (x y : Reg) (n : Rows) {row col : Nat} (hrow : row < 32) (hcol : col < 64) :
    rowsOn s.settings.drawXPolicy (startColumn (s.getV x)) (startRow (s.getV y)) (s.readBytes s.dataAddr n.val)
      row col = spriteBit s x y n row col := by
  unfold rowsOn spriteBit
  rw [length_readBytes, rowOn_eq _ _ (startColumn_lt _) hcol]
  by_cases hin : startRow (s.getV y) ≤ row ∧ row < startRow (s.getV y) + n.val
  · obtain ⟨hlow, hhigh⟩ := hin
    have hlen : row - startRow (s.getV y) < (s.readBytes s.dataAddr n.val).length := by
      rw [length_readBytes]; omega
    rw [List.getD_eq_getElem _ _ hlen, getElem_readBytes]
    simp [hlow, hhigh, hrow]
  · have hout : ¬ (startRow (s.getV y) ≤ row ∧ row < 32 ∧ row < startRow (s.getV y) + n.val) :=
      fun ⟨hlow, _, hhigh⟩ => hin ⟨hlow, hhigh⟩
    rw [decide_eq_false hout, ← Bool.decide_and, decide_eq_false hin, Bool.false_and, Bool.false_and]

/-- What DRW draws: every pixel of the screen XORed with the sprite's. -/
theorem pixel_drawSprite (s : State) (x y : Reg) (n : Rows) {row col : Nat} (hrow : row < 32) (hcol : col < 64) :
    (s.drawSprite s.settings.drawXPolicy x y (s.readBytes s.dataAddr n.val)).fb.pixel row col =
      (s.fb.pixel row col ^^ spriteBit s x y n row col) := by
  rw [← rowsOn_eq_spriteBit s x y n hrow hcol]
  exact drawRows_fst _ (startColumn_lt _) _ _ _ row col

/-- What DRW leaves in VF: whether a set pixel of the sprite met a lit pixel. -/
theorem getV_drawSprite_VF (s : State) (x y : Reg) (n : Rows) :
    (collides s x y n →
      (s.drawSprite s.settings.drawXPolicy x y (s.readBytes s.dataAddr n.val)).getV VF = 1) ∧
    (¬ collides s x y n →
      (s.drawSprite s.settings.drawXPolicy x y (s.readBytes s.dataAddr n.val)).getV VF = 0) := by
  have hhit := drawRows_snd s.settings.drawXPolicy (startColumn_lt (s.getV x)) (s.readBytes s.dataAddr n.val)
    (startRow (s.getV y)) (s.fb, false)
  have hcollides : collides s x y n ↔ ∃ row col, s.fb.pixel row col = true ∧
      rowsOn s.settings.drawXPolicy (startColumn (s.getV x)) (startRow (s.getV y)) (s.readBytes s.dataAddr n.val)
        row col = true := by
    constructor
    · rintro ⟨row, col, hrow, hcol, hlit, hset⟩
      exact ⟨row, col, hlit, (rowsOn_eq_spriteBit s x y n hrow hcol).trans hset⟩
    · rintro ⟨row, col, hlit, hset⟩
      obtain ⟨hrow, hcol⟩ := lt_of_pixel hlit
      exact ⟨row, col, hrow, hcol, hlit, (rowsOn_eq_spriteBit s x y n hrow hcol).symm.trans hset⟩
  rw [State.drawSprite, getV_setFlag_self, hcollides]
  constructor
  · intro hmeet
    rw [hhit.mpr (.inr hmeet)]
    rfl
  · intro hmiss
    rw [Bool.eq_false_iff.mpr fun h => (hhit.mp h).elim Bool.false_ne_true hmiss]
    rfl

/-- The range of DRW lies in memory when it is empty or its last byte does. -/
theorem inRange_drw {s : State} {n : Rows} :
    inRange s.dataAddr n.val = true ↔ n.val = 0 ∨ s.I.toNat + n.val - 1 ≤ 0xFFF := by
  rw [inRange_iff, State.dataAddr]
  omega

/-- Settles O39: with its bytes in memory DRW is one draw (`pixel_drawSprite`, `getV_drawSprite_VF`), otherwise it
raises MemoryBounds (`exec_of_execFault`). -/
theorem drawXorsSpriteOntoScreen : Obligations.DrawXorsSpriteOntoScreen := by
  intro x y n s
  constructor
  · intro hend
    obtain ⟨hmeet, hmiss⟩ := getV_drawSprite_VF s x y n
    exact ⟨_, (exec_drw x y n s).trans ((execDrw_eq x y n s).trans (if_pos (inRange_drw.mpr hend))),
      fun row col => pixel_drawSprite s x y n, hmeet, hmiss, sameExcept_drawSprite s _ x y _⟩
  · intro hend
    have hfault : execFault (.drw x y n) s = some .memoryBounds := if_neg (by rw [inRange_drw]; omega)
    exact ⟨_, exec_of_execFault hfault, latch_fault s _, sameExcept_latch s _⟩

/-! ### The XOR law -/

/-- The same pixel XORed twice is the pixel before (R144). -/
theorem drawRows_drawRows (p : Config.DrawXPolicy) {x0 : Nat} (y0 : Nat) (rows : List Byte) (f : Screen)
    (hit hit' : Bool) (hx : x0 < 64) : (drawRows p x0 y0 rows ((drawRows p x0 y0 rows (f, hit)).1, hit')).1 = f :=
  screen_ext fun row col _ _ => by
    rw [drawRows_fst p hx, drawRows_fst p hx, Bool.xor_assoc, Bool.xor_self, Bool.xor_false]

/-- A state that DRW has left with the start position unchanged has the same sprite there: memory, I and the settings
are as before. -/
theorem spriteBit_of_sameExcept {s t : State} {x y : Reg} (hframe : SameExcept [.V VF, .fb] s t)
    (hcol : startColumn (t.getV x) = startColumn (s.getV x)) (hrow : startRow (t.getV y) = startRow (s.getV y))
    (n : Rows) : spriteBit t x y n = spriteBit s x y n := by
  funext row col
  simp only [spriteBit, State.dataAddr, hcol, hrow, hframe.I (by simp), hframe.mem (by simp), hframe.settings]

/-- Settles O40: both draws are those of O39, of one sprite (`spriteBit_of_sameExcept`). -/
theorem drawingTwiceRestoresScreen : Obligations.DrawingTwiceRestoresScreen := by
  refine ⟨fun p x0 y0 rows f hit hit' => drawRows_drawRows p y0 rows f hit hit',
    fun x y n s t hend hfirst hcol hrow => ?_⟩
  obtain ⟨t', ht', hpixels, -, hmiss, hframe⟩ := (drawXorsSpriteOntoScreen x y n s).1 hend
  cases ht'.symm.trans hfirst
  have hsprite := spriteBit_of_sameExcept hframe hcol hrow n
  obtain ⟨u, hu, hpixels', hmeet', hmiss', -⟩ :=
    (drawXorsSpriteOntoScreen x y n t).1 (by rwa [hframe.I (by simp)])
  refine ⟨u, hu, screen_ext fun row col hr hc => ?_, fun hnone => ⟨hmiss hnone, ?_, ?_⟩⟩
  · rw [hpixels' row col hr hc, hpixels row col hr hc, hsprite, Bool.xor_assoc, Bool.xor_self, Bool.xor_false]
  · rintro ⟨row, col, hr, hc, hset⟩
    have hdark : s.fb.pixel row col = false :=
      Bool.eq_false_iff.mpr fun hlit => hnone ⟨row, col, hr, hc, hlit, hset⟩
    refine hmeet' ⟨row, col, hr, hc, ?_, by rwa [hsprite]⟩
    rw [hpixels row col hr hc, hdark, hset]
    rfl
  · intro hempty
    refine hmiss' fun ⟨row, col, hr, hc, _, hset⟩ => ?_
    rw [hsprite, hempty row col hr hc] at hset
    cases hset

/-! ### The word form of a sprite row -/

/-- A sprite byte shifted to column `x0` of a row's word (R143). -/
def rowPattern (x0 : Nat) (byte : Byte) : BitVec 64 := (byte.setWidth 64 <<< 56) >>> x0

/-- Under clipping, the columns of the shifted byte are those of the sprite row. -/
theorem getMsbD_rowPattern {x0 col : Nat} (byte : Byte) (hx : x0 < 64) (hcol : col < 64) :
    (rowPattern x0 byte).getMsbD col = rowOn .clip x0 byte col := by
  have hshift : (rowPattern x0 byte).getMsbD col = (!decide (col < x0) && byte.getMsbD (col - x0)) := by
    simp [rowPattern, BitVec.getMsbD_ushiftRight, hcol]
  rw [hshift, rowOn_eq _ byte hx hcol, BitVec.getMsbD_eq_getLsbD, Bool.eq_iff_iff]
  simp only [Bool.and_eq_true, Bool.not_eq_true', decide_eq_false_iff_not, decide_eq_true_eq, List.any_eq_true,
    List.mem_range, pixelLiesOn]
  constructor
  · rintro ⟨hle, hlt, hbit⟩
    exact ⟨col - x0, hlt, hbit, by omega⟩
  · rintro ⟨c, hlt, hbit, rfl⟩
    rw [Nat.add_sub_cancel_left]
    exact ⟨by omega, hlt, hbit⟩

/-- A word is not zero when one of its columns is set. -/
theorem ne_zero_iff_exists_getMsbD {w : BitVec 64} : w ≠ 0 ↔ ∃ col, w.getMsbD col = true := by
  constructor
  · intro hne
    by_contra hclear
    push Not at hclear
    exact hne (BitVec.eq_of_getMsbD_eq fun col _ => by
      rw [Bool.eq_false_iff.mpr (hclear col)]
      simp)
  · rintro ⟨col, hset⟩ rfl
    simp at hset

/-- The word form of one row's pixels: the row's word XORed with the shifted byte (R143). -/
theorem drawRow_fst_eq_set {x0 y : Nat} (byte : Byte) (f : Screen) (hit : Bool) (hx : x0 < 64) (hy : y < 32) :
    (drawRow .clip x0 y byte (f, hit)).1 = f.set y (f[y] ^^^ rowPattern x0 byte) := by
  refine screen_ext fun row col hrow hcol => ?_
  rw [drawRow_fst _ y byte _ hx, ← getMsbD_rowPattern byte hx hcol, pixel_eq_getMsbD _ hrow, pixel_eq_getMsbD _ hrow,
    Vector.getElem_set]
  by_cases hsame : row = y
  · subst hsame
    simp [hrow]
  · simp [hsame, Ne.symm hsame]

/-- The word form of one row's hit: the row's word and the shifted byte share a bit (R143). -/
theorem drawRow_snd_eq {x0 y : Nat} (byte : Byte) (f : Screen) (hit : Bool) (hx : x0 < 64) (hy : y < 32) :
    (drawRow .clip x0 y byte (f, hit)).2 = (hit || decide (f[y] &&& rowPattern x0 byte ≠ 0)) := by
  rw [Bool.eq_iff_iff, drawRow_snd _ y byte _ hx, Bool.or_eq_true, decide_eq_true_eq, ne_zero_iff_exists_getMsbD]
  refine or_congr_right (exists_congr fun col => ?_)
  rw [BitVec.getMsbD_and, Bool.and_eq_true, ← pixel_eq_getMsbD f hy]
  refine and_congr_right fun hlit => ?_
  rw [getMsbD_rowPattern byte hx (lt_of_pixel hlit).2]

/-- Settles O41: the row's pixels and its hit, each in its word form (`drawRow_fst_eq_set`, `drawRow_snd_eq`). -/
theorem spriteRowIsWordXor : Obligations.SpriteRowIsWordXor :=
  fun _ _ byte f hit hx hy => Prod.ext (drawRow_fst_eq_set byte f hit hx hy) (drawRow_snd_eq byte f hit hx hy)

end Sys2Proof.Machine
end

section
/-! Proofs.Keypad: the key mask's events (R150, R151) and SKP, SKNP, WKEY (R152 to R154) of 46_keypad.md. -/

namespace Sys2Proof.Machine

/-! ### SKP and SKNP -/

/-- Settles O42: with a key named both are `skipIf` of a test of its bit (`exec_skipIf_effect`); with none named each
raises InvalidOpcode (`exec_of_execFault`). -/
theorem keySkipsTestNamedKey : Obligations.KeySkipsTestNamedKey := by
  intro x s
  constructor
  · intro hkey
    have hnamed : ¬ (s.getV x).toNat > 0xF := Nat.not_lt.mpr hkey
    exact ⟨exec_skipIf_effect ((exec_skp x s).trans ((execSkp_eq x s).trans (if_neg hnamed))) Iff.rfl,
      exec_skipIf_effect ((exec_sknp x s).trans ((execSknp_eq x s).trans (if_neg hnamed)))
        (iff_of_eq (Bool.not_eq_true' _))⟩
  · intro hkey
    exact ⟨⟨_, exec_of_execFault (i := .skp x) (if_pos hkey), latch_fault s _, sameExcept_latch s _⟩,
      ⟨_, exec_of_execFault (i := .sknp x) (if_pos hkey), latch_fault s _, sameExcept_latch s _⟩⟩

/-! ### WKEY -/

/-- A step of WKEY with no key down goes back to itself: pc ends where it began (R154, R85). -/
theorem interpret_wkey_waits {s : State} {x : Reg} (hfault : s.fault = none) (hnext : s.nextInstr = some (.wkey x))
    (hkeys : s.keys = 0) : s.interpret = .next s := by
  have hadvanced : (s.setPc (s.pc + 2)).keys = 0 := hkeys
  rw [interpret_executed hfault hnext, exec_wkey, execWkey_none hadvanced, rewind_eq_setPc, setPc_setPc, setPc_pc,
    BitVec.add_sub_cancel, setPc_self]

/-- Settles O43: WKEY is one write of VX with the lowest key down (`lowestKey_eq_some`), or one of pc where no key is
(`lowestKey_eq_none`). -/
theorem waitKeyTakesLowestKey : Obligations.WaitKeyTakesLowestKey := by
  refine ⟨fun x s hkeys => ?_, fun x s hkeys => ?_, fun x s hsched hnext hkeys => ?_⟩
  · obtain ⟨k, hk⟩ := Option.ne_none_iff_exists'.mp (mt lowestKey_eq_none.mp hkeys)
    obtain ⟨hlt, hdown, hlower⟩ := lowestKey_eq_some hk
    have hindex : ((s.setV x (BitVec.ofNat 8 k)).getV x).toNat = k := by
      rw [getV_setV_self, BitVec.toNat_ofNat]
      omega
    exact ⟨_, (exec_wkey x s).trans (execWkey_some hk), by rwa [hindex], by rwa [hindex], sameExcept_setV s x _⟩
  · exact ⟨_, (exec_wkey x s).trans (execWkey_none hkeys), rfl, sameExcept_setPc s _⟩
  · rw [step_nil hsched]
    by_cases hfault : s.fault = none
    · exact interpret_wkey_waits hfault hnext hkeys
    · exact interpret_halted hfault

/-! ### Key events -/

/-- Settles O44: each event is one write of the key mask, bit by bit `keyDown_keys` and `keyUp_keys`. -/
theorem keyEventsChangeOneBit : Obligations.KeyEventsChangeOneBit := by
  intro k s
  refine ⟨⟨_, rfl, sameExcept_keyDown s k, fun j => ?_⟩, ⟨_, rfl, sameExcept_keyUp s k, fun j => ?_⟩⟩
  · rw [keyDown_keys]
    split_ifs with hj <;> simp [hj]
  · rw [keyUp_keys]
    split_ifs with hj <;> simp [hj]

end Sys2Proof.Machine
end
